-- ==== Sys2Proof/Word.lean ====
section
/-! DEFINITION. The words of the block: result words, bytes, the frame, the request word. -/

namespace Sys2Proof

/-- A 32-bit value: `value`, the accumulator, the response `RSP32` (`00_scope.md` R5, `30_encoding.md` R47). -/
abbrev Word := BitVec 32

/-- An 8-bit value: a byte of the frame, `start_bit`, `length`, `bit_length` (`00_scope.md` R5). -/
abbrev Byte := BitVec 8

/-- "an immutable sequence of exactly 8 bytes, indexed 0–7" (`20_memory.md` R20). -/
abbrev Frame := Vector Byte 8

/-- The `FRAME` field of a request (`30_encoding.md` R44). -/
abbrev FrameWord := BitVec 64

/-- A packed request, format `REQ128`, bit 127 the most significant (`30_encoding.md` R42). -/
abbrev ReqWord := BitVec 128

end Sys2Proof
end

