-- ==== Sys2Proof/Config.lean ====
section
/-! DEFINITION. The constants the source fixes (`00_scope.md` R5) and the one parameter it leaves open (R6). -/

namespace Sys2Proof.Config

/-- `FRAME_BYTES` (`00_scope.md` R5). -/
abbrev frameBytes : Nat := 8

/-- `FRAME_BITS`: bit positions lie in [0, 63] (`00_scope.md` R5). -/
abbrev frameBits : Nat := 64

/-- `MAX_LENGTH`: a longer field is degenerate (`00_scope.md` R5, `40_extract.md` R61). -/
abbrev maxLength : Nat := 32

/-- `LATENCY`, "any non-negative time", on which "no rule depends" (`70_reset_and_hazards.md` R127).
Without a value, and read by nothing in the model: the model is untimed (log 5). -/
opaque latency : Nat

end Sys2Proof.Config
end

