-- ==== Sys2Proof/Syntax.lean ====
section
/-! DEFINITION. The three operations with their operands, and the request as the record of six fields. -/

namespace Sys2Proof

/-- The three operations, "exactly three pure operations" (`00_scope.md` R2), one per row of the operation map
(`30_encoding.md` R50), each with the operands it uses (R41, last column) and no others: a field an operation does not
use is ignored (R46). The frame is `none` when it is absent (`ABSENT = 1`, R49). -/
inductive Instr
  /-- `extract_be_lsb(data, start_bit, length)`, `40_extract.md` R60. -/
  | extractBeLsb (data : Option Frame) (startBit length : Byte)
  /-- `extract_be_lsb_signed(data, start_bit, length)`, `42_extract_signed.md` R90. -/
  | extractBeLsbSigned (data : Option Frame) (startBit length : Byte)
  /-- `sign_extend(value, bit_length)`, `41_sign_extend.md` R80. -/
  | signExtend (value : Word) (bitLength : Byte)
deriving DecidableEq, Repr

/-- "The request is a record of six fields" (`30_encoding.md` R41); `LEN` carries `length` or `bit_length`. -/
structure Request where
  op     : BitVec 2
  absent : BitVec 1
  start  : Byte
  len    : Byte
  value  : Word
  frame  : FrameWord
deriving DecidableEq, Repr

end Sys2Proof
end

