-- ==== Sys2Proof/WellFormed.lean ====
section
/-! DEFINITION. What the host may present: a request word that is not reserved (`30_encoding.md` R51).
Every value of every operand is legal (R41, `60_exceptions.md` R101) and the types of `Instr` bound the widths, so there is
no ill-formed `Instr`; the three checks are those on the request word and its `OP`. -/

namespace Sys2Proof

/-- `OP = 0b11` names no operation (`30_encoding.md` R43, R51). -/
abbrev Request.OpDefined (r : Request) : Prop := r.op ≠ 3#2

/-- No bit of `RSV0` (bits 127:123) is set (`30_encoding.md` R42, R51). -/
abbrev ReqWord.Rsv0Clear (w : ReqWord) : Prop := w &&& 0xF8000000000000000000000000000000#128 = 0#128

/-- No bit of `RSV1` (bits 103:96) is set (`30_encoding.md` R42, R51). -/
abbrev ReqWord.Rsv1Clear (w : ReqWord) : Prop := w &&& 0x000000FF000000000000000000000000#128 = 0#128

/-- `OP` (bits 121:120) is not `0b11` (`30_encoding.md` R43, R51). -/
abbrev ReqWord.OpDefined (w : ReqWord) : Prop :=
  w &&& 0x03000000000000000000000000000000#128 ≠ 0x03000000000000000000000000000000#128

/-- A request word that is not reserved (`30_encoding.md` R51). -/
abbrev ReqWord.WellFormed (w : ReqWord) : Prop :=
  ReqWord.Rsv0Clear w ∧ ReqWord.Rsv1Clear w ∧ ReqWord.OpDefined w

end Sys2Proof
end

