-- ==== Sys2Proof/Decode.lean ====
section
/-! DEFINITION. The request word `REQ128`: unpacking, packing, decoding, encoding (`30_encoding.md` R42 to R55). -/

namespace Sys2Proof

/-- Why a request word is reserved (`30_encoding.md` R51; `93_implementation_defined.md` U1, U2). -/
inductive Reserved
  /-- `OP = 0b11` (U1). -/
  | op
  /-- A bit of `RSV0` or `RSV1` is set (U2). -/
  | bit
deriving DecidableEq, Repr

/-- A field of `n` bits in its place in a word of `N` bits: its bit 0 at bit `k`, every other bit of the word 0. -/
def fieldAt (N k : Nat) {n : Nat} (x : BitVec n) : BitVec N := x.setWidth N <<< k

/-! ### The frame field (R44) -/

/-- `data[b] = FRAME[63 - 8*b : 56 - 8*b]` (`30_encoding.md` R44). -/
def unpackFrame (f : FrameWord) : Frame :=
  #v[f.extractLsb' 56 8, f.extractLsb' 48 8, f.extractLsb' 40 8, f.extractLsb' 32 8,
     f.extractLsb' 24 8, f.extractLsb' 16 8, f.extractLsb' 8 8, f.extractLsb' 0 8]

/-- The `FRAME` field of a frame (`30_encoding.md` R44); it is the number `W`, `data[0]` most significant
(`20_memory.md` R25). -/
def packFrame (d : Frame) : FrameWord :=
  fieldAt 64 56 d[0] ||| fieldAt 64 48 d[1] ||| fieldAt 64 40 d[2] ||| fieldAt 64 32 d[3] |||
  fieldAt 64 24 d[4] ||| fieldAt 64 16 d[5] ||| fieldAt 64 8 d[6] ||| fieldAt 64 0 d[7]

/-! ### The fields of the request word (R42) -/

/-- `RSV0`, bits 127:123. -/
def ReqWord.rsv0 (w : ReqWord) : BitVec 5 := w.extractLsb' 123 5

/-- `RSV1`, bits 103:96. -/
def ReqWord.rsv1 (w : ReqWord) : BitVec 8 := w.extractLsb' 96 8

/-- The six fields of a request word (`30_encoding.md` R42). -/
def ReqWord.fields (w : ReqWord) : Request :=
  { op     := w.extractLsb' 120 2
    absent := w.extractLsb' 122 1
    start  := w.extractLsb' 112 8
    len    := w.extractLsb' 104 8
    value  := w.extractLsb' 64 32
    frame  := w.extractLsb' 0 64 }

/-- The request word of the six fields, its reserved bits 0 (`30_encoding.md` R42). -/
def Request.word (r : Request) : ReqWord :=
  fieldAt 128 122 r.absent ||| fieldAt 128 120 r.op ||| fieldAt 128 112 r.start ||| fieldAt 128 104 r.len |||
  fieldAt 128 64 r.value ||| fieldAt 128 0 r.frame

/-! ### Decoding -/

/-- The frame operand: absent when `ABSENT = 1`, whatever `FRAME` holds (`30_encoding.md` R49). -/
def Request.data (r : Request) : Option Frame :=
  if r.absent = 1#1 then none else some (unpackFrame r.frame)

/-- The operation `OP` selects, with its operands taken from the fields unchanged (`30_encoding.md` R43, R45, R46). -/
def Request.instr (r : Request) : Except Reserved Instr :=
  if r.op = 0b00#2 then .ok (.extractBeLsb r.data r.start r.len)
  else if r.op = 0b01#2 then .ok (.extractBeLsbSigned r.data r.start r.len)
  else if r.op = 0b10#2 then .ok (.signExtend r.value r.len)
  else .error .op

/-- The instruction of a request word, or the reason why the word is reserved (`30_encoding.md` R51). A word that is
reserved for both reasons is named by its reserved bits (log 3). -/
def decode (w : ReqWord) : Except Reserved Instr :=
  if w.rsv0 ≠ 0#5 ∨ w.rsv1 ≠ 0#8 then .error .bit
  else w.fields.instr

/-! ### Encoding -/

/-- `ABSENT` and `FRAME` of a frame operand; an absent frame is written with `FRAME` 0 (`30_encoding.md` R49, R54). -/
def absentField (data : Option Frame) : BitVec 1 := if data.isNone then 1#1 else 0#1

/-- The `FRAME` field of a frame operand (`30_encoding.md` R44, R54). -/
def frameField (data : Option Frame) : FrameWord :=
  match data with
  | none => 0#64
  | some d => packFrame d

/-- The fields of an instruction; "fields the operation ignores are encoded as 0" (`30_encoding.md` R43, R54). -/
def Instr.request (i : Instr) : Request :=
  match i with
  | .extractBeLsb data startBit length =>
    { op := 0b00#2, absent := absentField data, start := startBit, len := length, value := 0#32, frame := frameField data }
  | .extractBeLsbSigned data startBit length =>
    { op := 0b01#2, absent := absentField data, start := startBit, len := length, value := 0#32, frame := frameField data }
  | .signExtend value bitLength =>
    { op := 0b10#2, absent := 0#1, start := 0#8, len := bitLength, value := value, frame := 0#64 }

/-- The request word of an instruction. -/
def encode (i : Instr) : ReqWord := i.request.word

/-! ### The operation map (R50) -/

/-- The mnemonic of an instruction (`30_encoding.md` R50). -/
def Instr.mnemonic (i : Instr) : String :=
  match i with
  | .extractBeLsb _ _ _ => "extract_be_lsb"
  | .extractBeLsbSigned _ _ _ => "extract_be_lsb_signed"
  | .signExtend _ _ => "sign_extend"

/-- A row of the operation map: `mask` selects the bits that decide the operation, `pattern` (the table's `match`) is
their required value (`30_encoding.md` R50). -/
structure MapRow where
  mnemonic : String
  pattern  : ReqWord
  mask     : ReqWord
deriving DecidableEq, Repr

/-- The complete map on `REQ128` (`30_encoding.md` R50). -/
def operationMap : List MapRow :=
  [ { mnemonic := "extract_be_lsb"
      pattern  := 0x00000000000000000000000000000000#128
      mask     := 0xFB0000FF000000000000000000000000#128 },
    { mnemonic := "extract_be_lsb_signed"
      pattern  := 0x01000000000000000000000000000000#128
      mask     := 0xFB0000FF000000000000000000000000#128 },
    { mnemonic := "sign_extend"
      pattern  := 0x02000000000000000000000000000000#128
      mask     := 0xFB0000FF000000000000000000000000#128 } ]

/-- "A request word `w` selects a row when `w & mask = match`" (`30_encoding.md` R50). -/
def MapRow.selects (r : MapRow) (w : ReqWord) : Bool := w &&& r.mask == r.pattern

/-! ### The pseudo-operation (R55) -/

/-- `extract_signal(data, start_bit, length, is_signed)` (`30_encoding.md` R55). -/
def extractSignal (data : Option Frame) (startBit length : Byte) (isSigned : Bool) : Instr :=
  if isSigned then .extractBeLsbSigned data startBit length else .extractBeLsb data startBit length

/-! ### The host's question -/

/-- The request word whose bits, numbered as the operation map numbers them, are the low `nbits` bits of `w`, every
higher bit 0 (log 11). -/
def tableWord (nbits w : Nat) : ReqWord := BitVec.ofNat 128 (w % 2 ^ nbits)

/-- The instruction the decoder reads from a table word. -/
def decodeTableWord (nbits w : Nat) : Option Instr :=
  match decode (tableWord nbits w) with
  | .ok i => some i
  | .error _ => none

end Sys2Proof
end

