-- ==== Sys2Proof/Machine/State.lean ====
section
/-! DEFINITION. The state of a run, the faults (none) and the refusals.

THE BLOCK HOLDS NO STATE (`10_state.md` R10 to R16, R19). What `State` holds is the run around it: the requests the host has
still to present and the (request, response) pairs observed so far (`00_scope.md` R9). No meaning reads either (log 1). -/

namespace Sys2Proof.Machine

/-- One request answered: the request as decoded, and the response word `RSP32` (`00_scope.md` R9, `30_encoding.md` R47). -/
structure Exchange where
  request  : Instr
  response : Word
deriving DecidableEq, Repr

/-- The state of a run of the one block.
The response port has no field: it holds no value between requests (`10_state.md` R18). -/
structure State where
  /-- The host's requests still to be presented, the next one first (`10_state.md` R11, `20_memory.md` R36). -/
  requests : List ReqWord
  /-- "the observation of a run is the sequence of (request, response) pairs" (`00_scope.md` R9), oldest first. -/
  observed : List Exchange
deriving DecidableEq, Repr

/-- No fault: "The block raises no synchronous exception, ever ... it has no fault outcome" (`60_exceptions.md` R100).
A closed type without a constructor: nobody raises one. -/
inductive Fault
deriving DecidableEq, Repr

/-- Why a step is refused: a request that names no operation (`30_encoding.md` R51). -/
inductive Refusal
  /-- An instruction without a meaning in the model: raised by an arm of `exec` rejected by name. No arm is. Safe. -/
  | notModelled (mnemonic : String)
  /-- A request with `OP = 0b11`: raised by `step` (R51, `93_implementation_defined.md` U1). Safe: the response of
  hardware is unspecified and the model gives none. -/
  | reservedOp
  /-- A request with a bit of `RSV0` or `RSV1` set: raised by `step` (R51, `93_implementation_defined.md` U2). Safe, as
  `reservedOp`. -/
  | reservedBit
deriving DecidableEq, Repr

/-- After reset nothing is held (`10_state.md` R19, `70_reset_and_hazards.md` R120): no request has been answered, and the
host has presented none yet (log 4). -/
def State.reset : State := { requests := [], observed := [] }

end Sys2Proof.Machine
end

