-- ==== Sys2Proof/Machine/Ops.lean ====
section
/-! DEFINITION. The named operations: reading the frame, the traversal step, the signed reading of a word, taking a request
from the host, answering it.

There is no memory to write (`20_memory.md` R31), no register, and no operation for taking an exception or returning from
one: "there are no traps. Nothing is saved, no mode or mask changes, control goes nowhere", "there is no return instruction"
(`60_exceptions.md` R108, R109). -/

namespace Sys2Proof.Machine

/-! ### The frame space -/

/-- `MemRead(b, 1) = data[b]` for `0 <= b <= 7` (`20_memory.md` R20); no other byte exists. -/
def memRead (data : Frame) (b : Fin 8) : Byte := data[b]

/-- `FrameBit(b, k) = (data[b] >> k) & 1` (`20_memory.md` R22). -/
def frameBit (data : Frame) (b : Fin 8) (k : Nat) : Byte := (memRead data b >>> k) &&& 1#8

/-- A place of the traversal: byte index `b` and bit-within-byte index `k` (`20_memory.md` R21, R23). The byte index
reaches 8 when the traversal leaves the frame (R26). -/
structure Place where
  byte : Nat
  bit  : Nat
deriving DecidableEq, Repr

/-- `Advance(b, k)`, the step "forward" (`20_memory.md` R23). -/
def advance (p : Place) : Place :=
  if p.bit > 0 then { byte := p.byte, bit := p.bit - 1 } else { byte := p.byte + 1, bit := 7 }

/-! ### The signed reading of 32 bits -/

/-- `toSigned32(u)`: `u` if `u < 2^31`, else `u - 2^32` (`00_scope.md` R7). -/
def toSigned32 (u : Word) : Int := if u.toNat < 2 ^ 31 then u.toNat else (u.toNat : Int) - 2 ^ 32

/-- `toUnsigned32(s) = s mod 2^32` (`00_scope.md` R7). -/
def toUnsigned32 (s : Int) : Word := BitVec.ofInt 32 s

/-- How the host reads the response word of a request: unsigned for `extract_be_lsb`, two's complement for the other two
(`30_encoding.md` R47, R48). -/
def hostReading (e : Exchange) : Int :=
  match e.request with
  | .extractBeLsb _ _ _ => e.response.toNat
  | .extractBeLsbSigned _ _ _ => toSigned32 e.response
  | .signExtend _ _ => toSigned32 e.response

/-! ### The request and the response -/

/-- The next request of the host, and the run without it; none when the host has stopped issuing requests
(`00_scope.md` R9). -/
def takeRequest (s : State) : Option (ReqWord × State) :=
  match s.requests with
  | [] => none
  | w :: rest => some (w, { s with requests := rest })

/-- No request is presented: nothing happens, and the response port has no value (`10_state.md` R18, log 2). -/
def idle (s : State) : Host.Outcome State Fault Refusal := .next s

/-- `result <- v`: "the one write every operation makes: the 32-bit response of the request" (`30_encoding.md` R47).
The pair is the run's next observation (`00_scope.md` R9), in the order of the requests (`70_reset_and_hazards.md` R129). -/
def answer (i : Instr) (v : Word) (s : State) : Host.Outcome State Fault Refusal :=
  .next { s with observed := s.observed ++ [{ request := i, response := v }] }

/-- A reserved request is refused (`30_encoding.md` R51). -/
def refuse (r : Reserved) : Host.Outcome State Fault Refusal :=
  match r with
  | .op => .refused .reservedOp
  | .bit => .refused .reservedBit

/-- The host issues one more request, after those it has chosen already ("issued top to bottom", `30_encoding.md` R54). -/
def State.present (s : State) (w : ReqWord) : State := { s with requests := s.requests ++ [w] }

/-- The host issues a program of requests, "issued top to bottom" (`30_encoding.md` R54). -/
def State.presentAll (s : State) (is : List Instr) : State := { s with requests := s.requests ++ is.map encode }

/-- The request presented next, before those chosen already. -/
def State.presentFirst (s : State) (w : ReqWord) : State := { s with requests := w :: s.requests }

end Sys2Proof.Machine
end

