-- ==== Sys2Proof/Machine/Operands.lean ====
section
/-! DEFINITION. Operand forms: the start place of a field, the places it visits, the degenerate descriptors, the masks of
`sign_extend` (`30_encoding.md` R45; `20_memory.md` R21 to R26; `40_extract.md` R61; `41_sign_extend.md` R80). -/

namespace Sys2Proof.Machine

/-! ### The start position and the traversal -/

/-- `(b, k) = (start_bit div 8, start_bit mod 8)` (`20_memory.md` R21, `40_extract.md` R60). -/
def startPlace (startBit : Byte) : Place := { byte := startBit.toNat / 8, bit := startBit.toNat % 8 }

/-- The absolute position of a place, `p = b*8 + k` (`20_memory.md` R21). -/
def Place.position (p : Place) : Nat := p.byte * 8 + p.bit

/-- A place with byte index above 7 is not part of the frame (`20_memory.md` R26). -/
def Place.inFrame (p : Place) : Bool := p.byte ≤ 7

/-- `Trav(s, i)`, the i-th place visited from `start_bit = s`: `Trav(s, i+1) = Advance(Trav(s, i))` (`20_memory.md` R24). -/
def trav (startBit : Byte) (i : Nat) : Place :=
  match i with
  | 0 => startPlace startBit
  | j + 1 => advance (trav startBit j)

/-- `Avail(s)`, the number of places inside the frame from `s` onward (`20_memory.md` R26). -/
def avail (startBit : Byte) : Nat := startBit.toNat % 8 + 1 + 8 * (7 - startBit.toNat / 8)

/-- `q(b, k) = 8*b + (7 - k)`, the stream index of a place (`20_memory.md` R25). -/
def Place.streamIndex (p : Place) : Nat := 8 * p.byte + (7 - p.bit)

/-- The bit of the frame at a place; a place outside the frame is never read and contributes 0 (`20_memory.md` R26). -/
def placeBit (data : Frame) (p : Place) : Bool :=
  if h : p.byte < 8 then frameBit data ⟨p.byte, h⟩ p.bit == 1#8 else false

/-! ### Degenerate descriptors -/

/-- The conditions under which an extraction gives 0 without reading the frame, but for the absent frame
(`40_extract.md` R61): `length == 0`, `length > 32`, `start_bit >= 64`. -/
def degenerate (startBit length : Byte) : Bool :=
  length.toNat == 0 || length.toNat > Config.maxLength || startBit.toNat ≥ Config.frameBits

/-! ### The masks of `sign_extend` -/

/-- `sign_bit_mask = 1 << (bit_length - 1)`, for `1 <= bit_length <= 31` (`41_sign_extend.md` R80). -/
def signBitMask (bitLength : Byte) : Word := 1#32 <<< (bitLength.toNat - 1)

/-- `~((1 << bit_length) - 1)`, for `1 <= bit_length <= 31`: bits 31 down to `bit_length` (`41_sign_extend.md` R80). -/
def fillMask (bitLength : Byte) : Word := ~~~((1#32 <<< bitLength.toNat) - 1#32)

end Sys2Proof.Machine
end

