-- ==== Sys2Proof/Machine/Extract.lean ====
section
/-! DEFINITION. BitFieldExtractor: `extract_be_lsb` (`40_extract.md`). -/

namespace Sys2Proof.Machine

/-- The loop of `40_extract.md` R60 from its i-th turn on, `n` turns left, at place `p` with accumulator `acc`:
it breaks where the traversal leaves the frame (R63), and the i-th bit visited is bit i of the result (R62). -/
def gather (data : Frame) (n i : Nat) (p : Place) (acc : Word) : Word :=
  match n with
  | 0 => acc
  | m + 1 =>
    if h : p.byte < 8 then
      gather data m (i + 1) (advance p)
        (if frameBit data ⟨p.byte, h⟩ p.bit = 1#8 then acc ||| (1#32 <<< i) else acc)
    else acc

/-- `extract_be_lsb(data, start_bit, length) -> u32` (`40_extract.md` R60, R61). -/
def extractBeLsb (data : Option Frame) (startBit length : Byte) : Word :=
  match data with
  | none => 0#32
  | some d =>
    if degenerate startBit length then 0#32
    else gather d length.toNat 0 (startPlace startBit) 0#32

/-- The operation `extract_be_lsb`: its `u32` result is the response (`30_encoding.md` R47). -/
def execExtractBeLsb (data : Option Frame) (startBit length : Byte) (s : State) : Host.Outcome State Fault Refusal :=
  answer (.extractBeLsb data startBit length) (extractBeLsb data startBit length) s

end Sys2Proof.Machine
end

