-- ==== Sys2Proof/Machine/SignExtend.lean ====
section
/-! DEFINITION. SignExtender: `sign_extend` (`41_sign_extend.md`). -/

namespace Sys2Proof.Machine

/-- `sign_extend(value, bit_length) -> i32` (`41_sign_extend.md` R80, R81); the formula is applied as written to a value
with bits at or above `bit_length` (R83, log 8). -/
def signExtend (value : Word) (bitLength : Byte) : Int :=
  if bitLength.toNat = 0 then toSigned32 value
  else if bitLength.toNat ≥ 32 then toSigned32 value
  else if value &&& signBitMask bitLength ≠ 0#32 then toSigned32 (value ||| fillMask bitLength)
  else toSigned32 value

/-- The operation `sign_extend`: the response is the two's-complement pattern of its `i32` result (`30_encoding.md` R48). -/
def execSignExtend (value : Word) (bitLength : Byte) (s : State) : Host.Outcome State Fault Refusal :=
  answer (.signExtend value bitLength) (toUnsigned32 (signExtend value bitLength)) s

end Sys2Proof.Machine
end

