-- ==== Sys2Proof/Machine/ExtractSigned.lean ====
section
/-! DEFINITION. SignedFieldExtractor: `extract_be_lsb_signed` (`42_extract_signed.md`). -/

namespace Sys2Proof.Machine

/-- `extract_be_lsb_signed(data, start_bit, length) -> i32`: "Pure composition", the same `length` serving both parts
(`42_extract_signed.md` R90). -/
def extractBeLsbSigned (data : Option Frame) (startBit length : Byte) : Int :=
  signExtend (extractBeLsb data startBit length) length

/-- The operation `extract_be_lsb_signed`: the response is the two's-complement pattern of its `i32` result
(`30_encoding.md` R48). -/
def execExtractBeLsbSigned (data : Option Frame) (startBit length : Byte) (s : State) :
    Host.Outcome State Fault Refusal :=
  answer (.extractBeLsbSigned data startBit length) (toUnsigned32 (extractBeLsbSigned data startBit length)) s

end Sys2Proof.Machine
end

