-- ==== Sys2Proof/Machine/Dispatch.lean ====
section
/-! DEFINITION. One arm per operation of the operation map (`30_encoding.md` R50). -/

namespace Sys2Proof.Machine

def exec (i : Instr) (s : State) : Host.Outcome State Fault Refusal :=
  match i with
  | .extractBeLsb data startBit length => Sys2Proof.Machine.execExtractBeLsb data startBit length s
  | .extractBeLsbSigned data startBit length => Sys2Proof.Machine.execExtractBeLsbSigned data startBit length s
  | .signExtend value bitLength => Sys2Proof.Machine.execSignExtend value bitLength s

end Sys2Proof.Machine
end

