-- ==== Sys2Proof/Machine/Step.lean ====
section
/-! DEFINITION. One step: one request of the host, answered or refused (`30_encoding.md` R40, `00_scope.md` R8). -/

namespace Sys2Proof.Machine

/-- Take the host's next request, decode it and carry it out in one indivisible step (`30_encoding.md` R40); refuse it when
it is reserved (R51). With no request presented, nothing happens (log 2). -/
def step (s : State) : Host.Outcome State Fault Refusal :=
  match takeRequest s with
  | none => idle s
  | some (w, rest) =>
    match decode w with
    | .ok i => exec i rest
    | .error r => refuse r

/-- The state in which the request word of the table word is presented next (log 11). -/
def State.withFetchWord (s : State) (nbits w : Nat) : State := s.presentFirst (tableWord nbits w)

end Sys2Proof.Machine
end

