-- ==== Sys2Proof/Machine/Text.lean ====
section
/-! DEFINITION. The written form of requests (`30_encoding.md` R54, R55): a request is written as a call, a program is one
request a line, `-> v` after a request states its response. What R54 shows by example only is settled in log 12. -/

namespace Sys2Proof.Machine.Text

/-! ### Names

The mnemonics are the names of the functions (`30_encoding.md` R54), as lists of characters. -/

/-- The name of `extract_be_lsb`. -/
def extractBeLsbName : List Char :=
  ['e', 'x', 't', 'r', 'a', 'c', 't', '_', 'b', 'e', '_', 'l', 's', 'b']

/-- The name of `extract_be_lsb_signed`. -/
def extractBeLsbSignedName : List Char :=
  ['e', 'x', 't', 'r', 'a', 'c', 't', '_', 'b', 'e', '_', 'l', 's', 'b', '_', 's', 'i', 'g',
   'n', 'e', 'd']

/-- The name of `sign_extend`. -/
def signExtendName : List Char :=
  ['s', 'i', 'g', 'n', '_', 'e', 'x', 't', 'e', 'n', 'd']

/-- The name of the pseudo-operation (`30_encoding.md` R55). -/
def extractSignalName : List Char :=
  ['e', 'x', 't', 'r', 'a', 'c', 't', '_', 's', 'i', 'g', 'n', 'a', 'l']

/-- The word for an absent frame. -/
def nullWord : List Char :=
  ['n', 'u', 'l', 'l']

/-- `is_signed` holds. -/
def trueWord : List Char :=
  ['t', 'r', 'u', 'e']

/-- `is_signed` does not hold. -/
def falseWord : List Char :=
  ['f', 'a', 'l', 's', 'e']

/-! ### Numbers -/

/-- The value of a digit, decimal or hexadecimal. -/
def digitValue (c : Char) : Option Nat :=
  if 48 ≤ c.toNat ∧ c.toNat ≤ 57 then some (c.toNat - 48)
  else if 97 ≤ c.toNat ∧ c.toNat ≤ 102 then some (c.toNat - 87)
  else if 65 ≤ c.toNat ∧ c.toNat ≤ 70 then some (c.toNat - 55)
  else none

/-- The digits of a number in a base, most significant first, after those read into `acc`. -/
def readDigits (base acc : Nat) (cs : List Char) : Option Nat :=
  match cs with
  | [] => some acc
  | c :: rest =>
    match digitValue c with
    | none => none
    | some d => if d < base then readDigits base (acc * base + d) rest else none

/-- "numbers are decimal or `0x` hexadecimal" (`30_encoding.md` R54). -/
def readNat (cs : List Char) : Option Nat :=
  match cs with
  | '0' :: 'x' :: c :: rest => readDigits 16 0 (c :: rest)
  | c :: rest => readDigits 10 0 (c :: rest)
  | [] => none

/-- A number that fits an operand of `w` bits; no wider value can be presented (`91_not_in_source.md` N19). -/
def readBits (w : Nat) (cs : List Char) : Option (BitVec w) :=
  match readNat cs with
  | none => none
  | some n => if n < 2 ^ w then some (BitVec.ofNat w n) else none

/-- The hexadecimal digit of a value below 16. -/
def hexChar (n : Nat) : Char := if n < 10 then Char.ofNat (48 + n) else Char.ofNat (87 + n)

/-- The low `k` hexadecimal digits of a value, most significant first. -/
def hexDigits (k v : Nat) : List Char :=
  match k with
  | 0 => []
  | j + 1 => hexDigits j (v / 16) ++ [hexChar (v % 16)]

/-! ### Tokens -/

/-- A word (a name or a number) or a punctuation mark. -/
inductive Token
  | word (cs : List Char)
  | punct (c : Char)
deriving DecidableEq, Repr

/-- The word read so far, last character first, as a token. -/
def closeWord (pending : List Char) : List Token :=
  if pending.isEmpty then [] else [.word pending.reverse]

/-- The tokens of a line; blanks separate them. -/
def tokens (pending cs : List Char) : List Token :=
  match cs with
  | [] => closeWord pending
  | c :: rest =>
    if c.isAlphanum || c == '_' then tokens (c :: pending) rest
    else if c.isWhitespace then closeWord pending ++ tokens [] rest
    else closeWord pending ++ .punct c :: tokens [] rest

/-! ### Calls -/

/-- The tokens after a given mark. -/
def expectMark (c : Char) (ts : List Token) : Option (List Token) :=
  match ts with
  | .punct d :: rest => if d = c then some rest else none
  | _ => none

/-- A number operand and the tokens after it. -/
def readOperand (w : Nat) (ts : List Token) : Option (BitVec w × List Token) :=
  match ts with
  | .word cs :: rest => (readBits w cs).map fun v => (v, rest)
  | _ => none

/-- `n + 1` byte values with commas between them. -/
def readBytes (n : Nat) (ts : List Token) : Option (List Byte × List Token) := do
  let (b, ts) ← readOperand 8 ts
  match n with
  | 0 => return ([b], ts)
  | m + 1 =>
    let ts ← expectMark ',' ts
    let (bs, ts) ← readBytes m ts
    return (b :: bs, ts)

/-- "`data` is a list of 8 byte values, or the word `null` for an absent frame" (`30_encoding.md` R54). -/
def readData (ts : List Token) : Option (Option Frame × List Token) :=
  match ts with
  | .word cs :: rest => if cs = nullWord then some (none, rest) else none
  | .punct c :: rest => do
    if c ≠ '[' then none
    let (bs, ts) ← readBytes 7 rest
    let ts ← expectMark ']' ts
    if h : bs.toArray.size = 8 then return (some ⟨bs.toArray, h⟩, ts) else none
  | [] => none

/-- The operands `data, start_bit, length`. -/
def readField (ts : List Token) : Option ((Option Frame × Byte × Byte) × List Token) := do
  let (data, ts) ← readData ts
  let ts ← expectMark ',' ts
  let (startBit, ts) ← readOperand 8 ts
  let ts ← expectMark ',' ts
  let (length, ts) ← readOperand 8 ts
  return ((data, startBit, length), ts)

/-- The words `true` and `false`. -/
def readTruth (ts : List Token) : Option (Bool × List Token) :=
  match ts with
  | .word cs :: rest =>
    if cs = trueWord then some (true, rest)
    else if cs = falseWord then some (false, rest)
    else none
  | _ => none

/-- The operands of a call, by the function's name, the pseudo-operation among them (`30_encoding.md` R54, R55). -/
def readArguments (name : List Char) (ts : List Token) : Option (Instr × List Token) :=
  if name = extractBeLsbName then do
    let ((data, startBit, length), ts) ← readField ts
    return (.extractBeLsb data startBit length, ts)
  else if name = extractBeLsbSignedName then do
    let ((data, startBit, length), ts) ← readField ts
    return (.extractBeLsbSigned data startBit length, ts)
  else if name = signExtendName then do
    let (value, ts) ← readOperand 32 ts
    let ts ← expectMark ',' ts
    let (bitLength, ts) ← readOperand 8 ts
    return (.signExtend value bitLength, ts)
  else if name = extractSignalName then do
    let ((data, startBit, length), ts) ← readField ts
    let ts ← expectMark ',' ts
    let (isSigned, ts) ← readTruth ts
    return (extractSignal data startBit length isSigned, ts)
  else none

/-- A call: the function's name and its operands in brackets. -/
def readCall (ts : List Token) : Option (Instr × List Token) :=
  match ts with
  | .word name :: rest => do
    let ts ← expectMark '(' rest
    let (i, ts) ← readArguments name ts
    let ts ← expectMark ')' ts
    return (i, ts)
  | _ => none

/-! ### Lines and programs -/

/-- A line: a request and the response it states, if it states one. -/
structure Line where
  request : Instr
  states  : Option Int
deriving DecidableEq, Repr

/-- `-> v`, or nothing, up to the end of the line. -/
def readStated (ts : List Token) : Option (Option Int) :=
  match ts with
  | [] => some none
  | .punct '-' :: .punct '>' :: .punct '-' :: .word cs :: [] => (readNat cs).map fun n => some (-(n : Int))
  | .punct '-' :: .punct '>' :: .word cs :: [] => (readNat cs).map fun n => some (n : Int)
  | _ => none

/-- One line of a program. -/
def readLine (cs : List Char) : Option Line := do
  let (i, ts) ← readCall (tokens [] cs)
  let v ← readStated ts
  return { request := i, states := v }

/-- The lines of a text; the line read so far stands in `pending`, last character first. -/
def lines (pending cs : List Char) : List (List Char) :=
  match cs with
  | [] => [pending.reverse]
  | c :: rest => if c = '\n' then pending.reverse :: lines [] rest else lines (c :: pending) rest

/-- "A sequence of requests is written one per line" (`30_encoding.md` R54); a line without a token is passed over. -/
def readProgram (text : String) : Option (List Line) :=
  ((lines [] text.toList).filter fun cs => !(tokens [] cs).isEmpty).mapM readLine

/-- What a line states holds of the exchange it leads to: `v` is the response as the host reads it. -/
def Line.holds (l : Line) (e : Exchange) : Bool :=
  e.request == l.request && (l.states.isNone || l.states == some (hostReading e))

/-! ### Writing a request -/

/-- A number written in hexadecimal with `k` digits. -/
def writeHex (k v : Nat) : List Char := '0' :: 'x' :: hexDigits k v

/-- Byte values with commas between them. -/
def writeBytes (bs : List Byte) : List Char :=
  match bs with
  | [] => []
  | [b] => writeHex 2 b.toNat
  | b :: rest => writeHex 2 b.toNat ++ ',' :: writeBytes rest

/-- The frame operand. -/
def writeData (data : Option Frame) : List Char :=
  match data with
  | none => nullWord
  | some d => '[' :: writeBytes d.toList ++ [']']

/-- A request written as a call, every number in hexadecimal (`30_encoding.md` R54). -/
def write (i : Instr) : List Char :=
  match i with
  | .extractBeLsb data startBit length =>
    extractBeLsbName ++ '(' :: writeData data ++ ',' :: ' ' :: writeHex 2 startBit.toNat ++
      ',' :: ' ' :: writeHex 2 length.toNat ++ [')']
  | .extractBeLsbSigned data startBit length =>
    extractBeLsbSignedName ++ '(' :: writeData data ++ ',' :: ' ' :: writeHex 2 startBit.toNat ++
      ',' :: ' ' :: writeHex 2 length.toNat ++ [')']
  | .signExtend value bitLength =>
    signExtendName ++ '(' :: writeHex 8 value.toNat ++ ',' :: ' ' :: writeHex 2 bitLength.toNat ++ [')']

end Sys2Proof.Machine.Text
end

