-- ==== Sys2Proof/Machine/Flags.lean ====
section
/-! DEFINITION. What a block with flags would flag. This block has none: the anomaly classes "leave no trace other than the
numeric result" (`10_state.md` R12), and no status bit accompanies a response (`30_encoding.md` R47). The classes themselves
are named here as a function of the request (`60_exceptions.md` R102, R103), which no meaning calls. -/

namespace Sys2Proof.Machine

/-- The rows of the table of anomalies (`60_exceptions.md` R103). -/
inductive Anomaly
  | zeroLength
  | lengthTooLarge
  | startOutOfFrame
  | frameAbsent
  | fieldOverrun
  | valueWiderThanBitLength
deriving DecidableEq, Repr

/-- The classes of the second column of that table: (a) out-of-range descriptor parameters, "like (a)" the absent frame,
(b) field overrun, and a value outside the source's assumption (`60_exceptions.md` R102, R103; `90_conflicts.md` C6). -/
inductive AnomalyClass
  | a
  | likeA
  | b
  | outsideAssumption
deriving DecidableEq, Repr

def Anomaly.class (x : Anomaly) : AnomalyClass :=
  match x with
  | .zeroLength => .a
  | .lengthTooLarge => .a
  | .startOutOfFrame => .a
  | .frameAbsent => .likeA
  | .fieldOverrun => .b
  | .valueWiderThanBitLength => .outsideAssumption

/-- "field overrun": `START <= 63`, `1 <= LEN <= 32`, `LEN > Avail(START)`; it is defined only for a traversal that is
started, hence not for an absent frame (`60_exceptions.md` R103, R107). -/
def overruns (startBit length : Byte) : Bool := !degenerate startBit length && length.toNat > avail startBit

/-- The anomalies of an extraction (`60_exceptions.md` R103). -/
def extractAnomalies (data : Option Frame) (startBit length : Byte) : List Anomaly :=
  (if length.toNat == 0 then [.zeroLength] else []) ++
  (if length.toNat > Config.maxLength then [.lengthTooLarge] else []) ++
  (if startBit.toNat ≥ Config.frameBits then [.startOutOfFrame] else []) ++
  (if data.isNone then [.frameAbsent] else []) ++
  (if data.isSome && overruns startBit length then [.fieldOverrun] else [])

/-- The anomalies of a request. For `sign_extend` the lengths 0 and 32 upward are no-ops, "not an anomaly of this operation"
(`60_exceptions.md` R103). -/
def anomalies (i : Instr) : List Anomaly :=
  match i with
  | .extractBeLsb data startBit length => extractAnomalies data startBit length
  | .extractBeLsbSigned data startBit length => extractAnomalies data startBit length
  | .signExtend value bitLength =>
    if 1 ≤ bitLength.toNat ∧ bitLength.toNat ≤ 31 ∧ 2 ^ bitLength.toNat ≤ value.toNat then [.valueWiderThanBitLength] else []

end Sys2Proof.Machine
end

