-- ==== Sys2Proof/Machine/Instances.lean ====
section
/-! DEFINITION. Several instances of the block (`60_exceptions.md` R112): "instances share no state and have no identifiers".
A row of independent runs, one of which steps at a time (log 6). -/

namespace Sys2Proof.Machine

/-- The outcome of one instance's step, in its place among the others. DESIGN CHOICE (log 6): where that instance's step is
refused, the whole row is. The spec refuses "the run" (`92_eei_decisions.md` D8, `93_implementation_defined.md` U1) and does
not say what becomes of the other instances' runs. -/
def putInstance (ss : List State) (j : Nat) (o : Host.Outcome State Fault Refusal) :
    Host.Outcome (List State) Fault Refusal :=
  match o with
  | .next s => .next (ss.set j s)
  | .fault f => .fault f
  | .refused r => .refused r

/-- Instance `j` takes one step; where there is no such instance, nothing happens (DESIGN CHOICE, log 6). -/
def stepInstance (ss : List State) (j : Nat) : Host.Outcome (List State) Fault Refusal :=
  match ss[j]? with
  | none => .next ss
  | some s => putInstance ss j (step s)

end Sys2Proof.Machine
end

