-- ==== Sys2Proof/Safety.lean ====
section
/-! DEFINITION. What a run owes and what it may rely on: the host's duty, and the responses in closed form, written from the
spec's derived rules and not from the meanings (`40_extract.md` R66; `41_sign_extend.md` R81 to R83). -/

namespace Sys2Proof.Machine

/-! ### The host's duty -/

/-- "does not issue reserved encodings" (`70_reset_and_hazards.md` R124, `30_encoding.md` R51). -/
def State.HostKeepsDuty (s : State) : Prop := ∀ w ∈ s.requests, ReqWord.WellFormed w

/-! ### What a request may change -/

/-- The run with one more request answered, and nothing else changed: the form in which statements name the next state. -/
def State.afterAnswer (s : State) (i : Instr) (v : Word) : State :=
  { requests := s.requests, observed := s.observed ++ [{ request := i, response := v }] }

/-- The bits of a request word that bear on its response: the reserved bits, `OP` and the fields the operation uses; with
an absent frame, not `FRAME` (`30_encoding.md` R41, R46, R49, R50). -/
def usedBits (i : Instr) : ReqWord :=
  match i with
  | .extractBeLsb (some _) _ _ => 0xFFFFFFFF00000000FFFFFFFFFFFFFFFF#128
  | .extractBeLsb none _ _ => 0xFFFFFFFF000000000000000000000000#128
  | .extractBeLsbSigned (some _) _ _ => 0xFFFFFFFF00000000FFFFFFFFFFFFFFFF#128
  | .extractBeLsbSigned none _ _ => 0xFFFFFFFF000000000000000000000000#128
  | .signExtend _ _ => 0xFB00FFFFFFFFFFFF0000000000000000#128

/-- The frame in which only bit position `p` is set (`40_extract.md` R67). -/
def onlyPosition (p : Nat) : Frame :=
  Vector.ofFn fun b => if b.val = p / 8 then 1#8 <<< (p % 8) else 0#8

/-! ### The responses in closed form -/

/-- `W[63 - q0 - i] * 2^i`, with `W[j] = 0` for `j < 0` (`40_extract.md` R66). -/
def streamTerm (data : Frame) (startBit : Byte) (i : Nat) : Nat :=
  let q := (startPlace startBit).streamIndex + i
  if q ≤ 63 ∧ (packFrame data).getLsbD (63 - q) then 2 ^ i else 0

/-- The sum over i in 0 .. length-1 of the terms (`40_extract.md` R66). -/
def streamSum (data : Frame) (startBit : Byte) (length : Nat) : Nat :=
  ((List.range length).map (streamTerm data startBit)).sum

/-- The unsigned field in closed form (`40_extract.md` R61, R66). -/
def closedField (data : Option Frame) (startBit length : Byte) : Nat :=
  match data with
  | none => 0
  | some d => if degenerate startBit length then 0 else streamSum d startBit length.toNat

/-- Sign extension in closed form: the no-op lengths (`41_sign_extend.md` R81); with bit `n - 1` set, the low `n` bits less
`2^n`, so that bits 31 to `n` are all 1; with it clear, the value unchanged (R82, R83; values wider than `n` bits: D15,
log 8). -/
def closedSigned (value : Word) (n : Nat) : Int :=
  if n = 0 ∨ n ≥ 32 then toSigned32 value
  else if value.toNat / 2 ^ (n - 1) % 2 = 1 then (value.toNat % 2 ^ n : Nat) - (2 ^ n : Nat)
  else toSigned32 value

/-- The response of each request in closed form. -/
def closedResponse (i : Instr) : Word :=
  match i with
  | .extractBeLsb data startBit length => BitVec.ofNat 32 (closedField data startBit length)
  | .extractBeLsbSigned data startBit length =>
    toUnsigned32 (closedSigned (BitVec.ofNat 32 (closedField data startBit length)) length.toNat)
  | .signExtend value bitLength => toUnsigned32 (closedSigned value bitLength.toNat)

/-- The exchange the rules demand for a request. -/
def rightExchange (i : Instr) : Exchange := { request := i, response := closedResponse i }

/-- Every response observed is the one its own request demands, whatever came before it (`10_state.md` R16,
`20_memory.md` R33). -/
def State.ObservedRight (s : State) : Prop := ∀ e ∈ s.observed, e = rightExchange e.request

end Sys2Proof.Machine
end

