-- ==== Sys2Proof/Certificates/Slice0/Obligations.lean ====
section
/-! DEFINITION. The statements, from the spec's numbered rules. Each says in its docstring which rule it formalises. The
next state of a request is named by `State.afterAnswer`: the run with that one exchange observed and nothing else changed. -/

open Sys2Proof Sys2Proof.Machine

/-! ### The request word (`30_encoding.md`) -/

/-- Encoding an instruction and decoding it gives it back, with every operand at every value (`30_encoding.md` R42 to R46,
R49). -/
def Obligations.DecodeOfEncodeIsTheInstruction : Prop := ∀ i : Instr, decode (encode i) = .ok i

/-- Decoding a word and encoding what it stands for gives the word back with its ignored fields 0 (R46, R54). -/
def Obligations.EncodeOfDecodeClearsIgnoredFields : Prop :=
  ∀ (w : ReqWord) (i : Instr), decode w = .ok i → encode i = w &&& usedBits i

/-- R50: the complete map; a word selects at most one row, it decodes to the operation whose row it selects, and a word that
selects none is reserved. -/
def Obligations.OperationMapSelectsTheDecodedOperation : Prop :=
  (operationMap.map fun r => (r.mnemonic, r.pattern, r.mask)) =
    [("extract_be_lsb", 0x00000000000000000000000000000000#128, 0xFB0000FF000000000000000000000000#128),
     ("extract_be_lsb_signed", 0x01000000000000000000000000000000#128, 0xFB0000FF000000000000000000000000#128),
     ("sign_extend", 0x02000000000000000000000000000000#128, 0xFB0000FF000000000000000000000000#128)] ∧
  ∀ w : ReqWord,
    (∀ r ∈ operationMap, r.selects w = true ↔ w &&& r.mask = r.pattern) ∧
    ((operationMap.filter fun r => r.selects w).length ≤ 1) ∧
    (∀ i, decode w = .ok i → (operationMap.filter fun r => r.selects w).map MapRow.mnemonic = [i.mnemonic]) ∧
    ((∃ r, decode w = .error r) ↔ (operationMap.filter fun r => r.selects w) = [])

/-- R51, R53: the words that decode are exactly those with reserved bits clear and `OP` not `0b11`. -/
def Obligations.DecodingSucceedsExactlyOffTheReservedSpace : Prop :=
  ∀ w : ReqWord, (∃ i, decode w = .ok i) ↔ ReqWord.WellFormed w

/-- R51: a step whose request has `OP = 0b11` or a reserved bit set is refused: not answered, not faulted. -/
def Obligations.ReservedRequestIsRefused : Prop :=
  ∀ (s : State) (w : ReqWord) (rest : List ReqWord), s.requests = w :: rest →
    (w.extractLsb' 120 2 = 0b11#2 ∨ w.extractLsb' 123 5 ≠ 0#5 ∨ w.extractLsb' 96 8 ≠ 0#8) →
    step s = .refused .reservedOp ∨ step s = .refused .reservedBit

/-- A reserved request is refused under the name of what makes it reserved, reserved bits first (R51; the order of the two
names is the model's choice, log 3). -/
def Obligations.RefusalNamesTheReservedField : Prop :=
  ∀ (s : State) (w : ReqWord) (rest : List ReqWord), s.requests = w :: rest →
    (w.extractLsb' 123 5 ≠ 0#5 ∨ w.extractLsb' 96 8 ≠ 0#8 → step s = .refused .reservedBit) ∧
    (w.extractLsb' 120 2 = 0b11#2 → w.extractLsb' 123 5 = 0#5 → w.extractLsb' 96 8 = 0#8 →
      step s = .refused .reservedOp)

/-- The worked encodings of `30_encoding.md` §8 and the encoding vectors of `95_test_vectors.md` §2.5, each family among
them, decode as listed there. -/
def Obligations.WorkedEncodingsDecode : Prop :=
  decode 0x00030C00000000000780000000000000#128 = .ok (.extractBeLsb (some #v[0x07, 0x80, 0, 0, 0, 0, 0, 0]) 3 12) ∧
  decode 0x01030C00000000000FFF000000000000#128 = .ok (.extractBeLsbSigned (some #v[0x0F, 0xFF, 0, 0, 0, 0, 0, 0]) 3 12) ∧
  decode 0x02000A00000002000000000000000000#128 = .ok (.signExtend 512 10) ∧
  decode 0x04000800000000000000000000000000#128 = .ok (.extractBeLsb none 0 8) ∧
  decode 0x00030C00DEADBEEF0780000000000000#128 = .ok (.extractBeLsb (some #v[0x07, 0x80, 0, 0, 0, 0, 0, 0]) 3 12) ∧
  decode 0x023F0A0000000200123456789ABCDEF0#128 = .ok (.signExtend 512 10) ∧
  decode 0x06000A00000002000000000000000000#128 = .ok (.signExtend 512 10) ∧
  decode 0x0407080000000000FFFFFFFFFFFFFFFF#128 = .ok (.extractBeLsb none 7 8) ∧
  decode 0x05030C00000000000000000000000000#128 = .ok (.extractBeLsbSigned none 3 12) ∧
  decode 0x03000000000000000000000000000000#128 = .error .op ∧
  decode 0x08030C00000000000780000000000000#128 = .error .bit ∧
  decode 0x00030C01000000000780000000000000#128 = .error .bit ∧
  decode 0x80000000000000000000000000000000#128 = .error .bit

/-- R44: `data[b] = FRAME[63 - 8*b : 56 - 8*b]`, the bit order inside a byte kept, and `FRAME` is the number `W`. -/
def Obligations.FrameBytesSitMostSignificantFirst : Prop :=
  (∀ (f : FrameWord) (b : Fin 8), (unpackFrame f)[b] = f.extractLsb' (56 - 8 * b.val) 8) ∧
  (∀ (d : Frame) (b : Fin 8) (k : Nat), k < 8 → (packFrame d).getLsbD (56 - 8 * b.val + k) = d[b].getLsbD k) ∧
  packFrame #v[0x0F, 0xFF, 0, 0, 0, 0, 0, 0] = 0x0FFF000000000000#64

/-- R45: the operands are the fields unchanged, and for `start_bit <= 63` the start place is `START[5:3]`, `START[2:0]`;
`START[7:6] != 0` means `start_bit >= 64`. -/
def Obligations.OperandsAreTheFieldsUnchanged : Prop :=
  (∀ (w : ReqWord) (d : Option Frame) (s l : Byte),
    decode w = .ok (.extractBeLsb d s l) ∨ decode w = .ok (.extractBeLsbSigned d s l) →
      s = w.extractLsb' 112 8 ∧ l = w.extractLsb' 104 8 ∧
      d = if w.getLsbD 122 then none else some (unpackFrame (w.extractLsb' 0 64))) ∧
  (∀ (w : ReqWord) (v : Word) (n : Byte), decode w = .ok (.signExtend v n) →
    v = w.extractLsb' 64 32 ∧ n = w.extractLsb' 104 8) ∧
  (∀ s : Byte, s.toNat ≤ 63 → startPlace s = { byte := s.toNat / 8, bit := s.toNat % 8 } ∧
    startPlace s = { byte := (s.extractLsb' 3 3).toNat, bit := (s.extractLsb' 0 3).toNat }) ∧
  (∀ s : Byte, s.extractLsb' 6 2 ≠ 0#2 ↔ 64 ≤ s.toNat)

/-- R46: the outcome of a step does not depend on a field the operation ignores: two words that agree on the bits it uses
have the same step. -/
def Obligations.IgnoredFieldsDoNotMatter : Prop :=
  ∀ (s : State) (w w' : ReqWord) (i : Instr), decode w = .ok i → w &&& usedBits i = w' &&& usedBits i →
    step (s.presentFirst w') = step (s.presentFirst w)

/-- R55: `extract_signal` is the signed or the unsigned extraction, and its `OP` is `0b0 ++ is_signed`. -/
def Obligations.ExtractSignalFollowsIsSigned : Prop :=
  ∀ (d : Option Frame) (s l : Byte) (isSigned : Bool),
    (isSigned = true → extractSignal d s l isSigned = .extractBeLsbSigned d s l) ∧
    (isSigned = false → extractSignal d s l isSigned = .extractBeLsb d s l) ∧
    (encode (extractSignal d s l isSigned)).extractLsb' 120 2 = 0#1 ++ BitVec.ofBool isSigned

/-- R54: a request written as a call reads back as that request; the digits it is written with are the model's choice
(log 12). -/
def Obligations.WrittenRequestReadsBack : Prop :=
  ∀ i : Instr, Text.readLine (Text.write i) = some { request := i, states := none }

/-! ### The frame space and the traversal (`20_memory.md`) -/

/-- R22: `FrameBit(b, k) = (data[b] >> k) & 1`, over the natural numbers, and in a frame with only position `p` set the
place of position `p` alone reads 1. -/
def Obligations.FrameBitIsOneBitOfTheByte : Prop :=
  (∀ (d : Frame) (b : Fin 8) (k : Nat), k ≤ 7 → (frameBit d b k).toNat = d[b].toNat / 2 ^ k % 2) ∧
  (∀ (p : Nat) (b : Fin 8) (k : Nat), p ≤ 63 → k ≤ 7 →
    frameBit (onlyPosition p) b k = if 8 * b.val + k = p then 1#8 else 0#8)

/-- R23: `Advance`; from the last place of the frame it leaves the frame. -/
def Obligations.AdvanceIsTheForwardStep : Prop :=
  (∀ b k : Nat, k > 0 → advance { byte := b, bit := k } = { byte := b, bit := k - 1 }) ∧
  (∀ b : Nat, advance { byte := b, bit := 0 } = { byte := b + 1, bit := 7 }) ∧
  (advance { byte := 7, bit := 0 }).inFrame = false

/-- The same step in position numbers, `NextPos`, which `20_memory.md` R23 derives. -/
def Obligations.AdvanceInPositionNumbers : Prop :=
  ∀ p : Place, p.bit ≤ 7 →
    (advance p).position = if p.position % 8 ≠ 0 then p.position - 1 else p.position + 15

/-- The closed form of `Trav(s, i)`, which `20_memory.md` R24 derives from R23. -/
def Obligations.TraversalClosedForm : Prop :=
  ∀ (s : Byte) (i : Nat), s.toNat ≤ 63 →
    trav s i =
      if i ≤ s.toNat % 8 then { byte := s.toNat / 8, bit := s.toNat % 8 - i }
      else { byte := s.toNat / 8 + 1 + (i - s.toNat % 8 - 1) / 8, bit := 7 - (i - s.toNat % 8 - 1) % 8 }

/-- The stream view, which `20_memory.md` R25 derives: the i-th place visited has stream index `q(s) + i`, and the bit with
stream index `q` is `W[63 - q]`. -/
def Obligations.TraversalIsTheStreamOrder : Prop :=
  (∀ (s : Byte) (i : Nat), (trav s i).streamIndex = 8 * (s.toNat / 8) + 7 - s.toNat % 8 + i) ∧
  (∀ (d : Frame) (p : Place), p.byte ≤ 7 → p.bit ≤ 7 → placeBit d p = (packFrame d).getLsbD (63 - p.streamIndex))

/-- `Avail(s)` counts the places inside the frame, which `20_memory.md` R26 derives from R23. -/
def Obligations.AvailCountsThePlacesInTheFrame : Prop :=
  ∀ (s : Byte) (i : Nat), s.toNat ≤ 63 → ((trav s i).inFrame = true ↔ i < avail s)

/-- An overrun can happen only for `s >= 32`, and for `s = 39` never, which `20_memory.md` R26 derives. -/
def Obligations.OverrunNeedsAStartInTheLaterBytes : Prop :=
  ∀ s l : Byte, overruns s l = true → 32 ≤ s.toNat ∧ s.toNat ≤ 63 ∧ s.toNat ≠ 39

/-- `41_sign_extend.md` R85: while the traversal runs, `b` stays within 0 to 8 and `k` within 0 to 7. -/
def Obligations.TraversalIndicesStayInRange : Prop :=
  ∀ (s : Byte) (i : Nat), s.toNat ≤ 63 → i ≤ avail s → (trav s i).byte ≤ 8 ∧ (trav s i).bit ≤ 7

/-! ### `extract_be_lsb` (`40_extract.md`) -/

/-- R64: for every non-degenerate request the operation completes, and bit `i` of its response is the bit of the frame at
traversal position `i` for `i < min(length, Avail(start_bit))`, and 0 above. -/
def Obligations.ExtractAnswersTheVisitedBits : Prop :=
  ∀ (s : State) (d : Frame) (start length : Byte), 1 ≤ length.toNat → length.toNat ≤ 32 → start.toNat ≤ 63 →
    ∃ v : Word, exec (.extractBeLsb (some d) start length) s = .next (s.afterAnswer (.extractBeLsb (some d) start length) v) ∧
      ∀ i, i < 32 →
        v.getLsbD i = (decide (i < min length.toNat (avail start)) && placeBit d (trav start i))

/-- `20_memory.md` R29: an extraction reads the places `Trav(s, 0)` to `Trav(s, min(length, Avail(s)) - 1)` and no others: two
frames that agree there have the same response. -/
def Obligations.ExtractReadsOnlyTheVisitedPlaces : Prop :=
  ∀ (s : State) (d d' : Frame) (start length : Byte),
    (∀ i, i < min length.toNat (avail start) → placeBit d (trav start i) = placeBit d' (trav start i)) →
    ∃ v : Word, exec (.extractBeLsb (some d) start length) s = .next (s.afterAnswer (.extractBeLsb (some d) start length) v) ∧
      exec (.extractBeLsb (some d') start length) s = .next (s.afterAnswer (.extractBeLsb (some d') start length) v)

/-- R61: the four degenerate conditions, each of which makes the response 0. -/
def Obligations.DegenerateExtractAnswersZero : Prop :=
  ∀ (s : State) (data : Option Frame) (start length : Byte),
    (length.toNat = 0 ∨ 32 < length.toNat ∨ 64 ≤ start.toNat ∨ data = none) →
    exec (.extractBeLsb data start length) s = .next (s.afterAnswer (.extractBeLsb data start length) 0#32)

/-- The closed form of the response, which `40_extract.md` R66 derives: the sum of `W[63 - q0 - i] * 2^i`. -/
def Obligations.ExtractAnswersTheStreamSum : Prop :=
  ∀ (s : State) (d : Frame) (start length : Byte), 1 ≤ length.toNat → length.toNat ≤ 32 → start.toNat ≤ 63 →
    ∃ v : Word, exec (.extractBeLsb (some d) start length) s = .next (s.afterAnswer (.extractBeLsb (some d) start length) v) ∧
      v.toNat = ((List.range length.toNat).map fun i =>
        if 8 * (start.toNat / 8) + 7 - start.toNat % 8 + i ≤ 63 ∧
            (packFrame d).getLsbD (63 - (8 * (start.toNat / 8) + 7 - start.toNat % 8 + i)) then 2 ^ i else 0).sum

/-- R65: the response is below `2^length`, for every request; for `length = 32` every bit may be set. -/
def Obligations.ExtractStaysBelowTwoToTheLength : Prop :=
  (∀ (s : State) (data : Option Frame) (start length : Byte),
    ∃ v : Word, exec (.extractBeLsb data start length) s = .next (s.afterAnswer (.extractBeLsb data start length) v) ∧
      v.toNat < 2 ^ length.toNat) ∧
  (∀ s : State, ∃ d : Frame, ∃ start : Byte,
    exec (.extractBeLsb (some d) start 32#8) s = .next (s.afterAnswer (.extractBeLsb (some d) start 32#8) 0xFFFFFFFF#32))

/-- R62: each bit visited becomes progressively more significant, the 1st bit 0 of the result: a field of `m` bits is the
low `m` bits of any longer field from the same start. -/
def Obligations.LongerFieldAddsOnlyHigherBits : Prop :=
  ∀ (s : State) (d : Frame) (start short long : Byte), start.toNat ≤ 63 → 1 ≤ short.toNat →
    short.toNat ≤ long.toNat → long.toNat ≤ 32 →
    ∃ v u : Word, exec (.extractBeLsb (some d) start short) s = .next (s.afterAnswer (.extractBeLsb (some d) start short) v) ∧
      exec (.extractBeLsb (some d) start long) s = .next (s.afterAnswer (.extractBeLsb (some d) start long) u) ∧
      v.toNat = u.toNat % 2 ^ short.toNat ∧ v.getLsbD 0 = placeBit d (startPlace start)

/-- R63: a field that overruns answers the bits gathered so far: the response of the field that ends with the frame, its
higher bits 0. -/
def Obligations.OverrunAnswersTheGatheredBits : Prop :=
  ∀ (s : State) (d : Frame) (start length : Byte), start.toNat ≤ 63 → avail start < length.toNat → length.toNat ≤ 32 →
    ∃ v : Word, exec (.extractBeLsb (some d) start length) s = .next (s.afterAnswer (.extractBeLsb (some d) start length) v) ∧
      (∀ i, i < avail start → v.getLsbD i = placeBit d (trav start i)) ∧ v.toNat < 2 ^ avail start ∧
      exec (.extractBeLsb (some d) start (BitVec.ofNat 8 (avail start))) s =
        .next (s.afterAnswer (.extractBeLsb (some d) start (BitVec.ofNat 8 (avail start))) v)

/-- R67: single-bit fidelity, and `extract_be_lsb(data, s, 1) = FrameBit(s div 8, s mod 8)`. -/
def Obligations.SingleBitFidelity : Prop :=
  (∀ (s : State) (p : Nat) (start : Byte), p ≤ 63 → start.toNat ≤ 63 →
    exec (.extractBeLsb (some (onlyPosition p)) start 1#8) s =
      .next (s.afterAnswer (.extractBeLsb (some (onlyPosition p)) start 1#8) (if start.toNat = p then 1#32 else 0#32))) ∧
  (∀ (s : State) (d : Frame) (start : Byte) (h : start.toNat / 8 < 8),
    exec (.extractBeLsb (some d) start 1#8) s =
      .next (s.afterAnswer (.extractBeLsb (some d) start 1#8)
        (BitVec.ofNat 32 (frameBit d ⟨start.toNat / 8, h⟩ (start.toNat % 8)).toNat)))

/-- R68: the all-zero frame gives 0 for every well-formed descriptor, the all-ones frame `2^length - 1` for every one that
does not overrun. -/
def Obligations.AllZeroAndAllOnesFrames : Prop :=
  ∀ (s : State) (start length : Byte), start.toNat ≤ 63 → 1 ≤ length.toNat → length.toNat ≤ 32 →
    exec (.extractBeLsb (some (Vector.replicate 8 0x00#8)) start length) s =
      .next (s.afterAnswer (.extractBeLsb (some (Vector.replicate 8 0x00#8)) start length) 0#32) ∧
    (length.toNat ≤ avail start →
      exec (.extractBeLsb (some (Vector.replicate 8 0xFF#8)) start length) s =
        .next (s.afterAnswer (.extractBeLsb (some (Vector.replicate 8 0xFF#8)) start length)
          (BitVec.ofNat 32 (2 ^ length.toNat - 1))))

/-- With overrun the all-ones frame gives `2^Avail(s) - 1`, which `40_extract.md` R68 derives from R63. -/
def Obligations.AllOnesFrameWithOverrun : Prop :=
  ∀ (s : State) (start length : Byte), start.toNat ≤ 63 → avail start < length.toNat → length.toNat ≤ 32 →
    exec (.extractBeLsb (some (Vector.replicate 8 0xFF#8)) start length) s =
      .next (s.afterAnswer (.extractBeLsb (some (Vector.replicate 8 0xFF#8)) start length)
        (BitVec.ofNat 32 (2 ^ avail start - 1)))

/-- The whole of a byte read from its bit 7 is that byte reversed, which `40_extract.md` R70 derives: result bit i is bit
`7 - i` of the byte. -/
def Obligations.ByteReadFromBitSevenIsReversed : Prop :=
  ∀ (s : State) (d : Frame) (b : Fin 8), ∃ v : Word,
    exec (.extractBeLsb (some d) (BitVec.ofNat 8 (8 * b.val + 7)) 8#8) s =
      .next (s.afterAnswer (.extractBeLsb (some d) (BitVec.ofNat 8 (8 * b.val + 7)) 8#8) v) ∧
    (∀ i, i < 8 → v.getLsbD i = d[b].getLsbD (7 - i)) ∧ v.toNat < 256

/-- R69: cross-byte continuity: the place after position 0 is position 15, and both bits contribute. -/
def Obligations.CrossByteContinuity : Prop :=
  (advance { byte := 0, bit := 0 }).position = 15 ∧
  ∀ s : State, exec (.extractBeLsb (some #v[0x01, 0x80, 0, 0, 0, 0, 0, 0]) 0 2) s =
    .next (s.afterAnswer (.extractBeLsb (some #v[0x01, 0x80, 0, 0, 0, 0, 0, 0]) 0 2) 3#32)

/-! ### `sign_extend` (`41_sign_extend.md`) -/

/-- R7: `toSigned32` is the two's-complement reading, `toUnsigned32(s) = s mod 2^32`, and each undoes the other. -/
def Obligations.SignedReadingIsReversible : Prop :=
  (∀ u : Word, (u.toNat < 2 ^ 31 → toSigned32 u = u.toNat) ∧ (2 ^ 31 ≤ u.toNat → toSigned32 u = (u.toNat : Int) - 2 ^ 32) ∧
    toUnsigned32 (toSigned32 u) = u) ∧
  (∀ z : Int, ((toUnsigned32 z).toNat : Int) = z % 2 ^ 32) ∧
  (∀ z : Int, -(2 ^ 31) ≤ z → z < 2 ^ 31 → toSigned32 (toUnsigned32 z) = z)

/-- R83: for `1 <= bit_length <= 31` and any value, the operation completes; if bit `bit_length - 1` is set, bits 31 to
`bit_length` of the response are all 1, else they are those of the value; the lower bits are those of the value. On a value
with bits at or above `bit_length` this rests on the spec's own choice (`92_eei_decisions.md` D15; log 8, DESIGN CHOICE). -/
def Obligations.SignExtendFillsAboveASetSignBit : Prop :=
  ∀ (s : State) (value : Word) (n : Byte), 1 ≤ n.toNat → n.toNat ≤ 31 →
    ∃ r : Word, exec (.signExtend value n) s = .next (s.afterAnswer (.signExtend value n) r) ∧
      ∀ i, i < 32 → r.getLsbD i = (value.getLsbD i || (decide (n.toNat ≤ i) && value.getLsbD (n.toNat - 1)))

/-- R81: for `bit_length` 0 and every one from 32 up the response is the value, bit for bit. -/
def Obligations.SignExtendLeavesNoOpLengthsUnchanged : Prop :=
  ∀ (s : State) (value : Word) (n : Byte), n.toNat = 0 ∨ 32 ≤ n.toNat →
    exec (.signExtend value n) s = .next (s.afterAnswer (.signExtend value n) value) ∧
    hostReading { request := .signExtend value n, response := value } = toSigned32 value

/-- R82: for `bit_length` in [1,31] and `v` below `2^bit_length`, the host reads `v` if `v < 2^(bit_length-1)`, else
`v - 2^bit_length`. -/
def Obligations.SignExtendIsTheTwosComplementMapping : Prop :=
  ∀ (s : State) (v : Word) (n : Byte), 1 ≤ n.toNat → n.toNat ≤ 31 → v.toNat < 2 ^ n.toNat →
    ∃ r : Word, exec (.signExtend v n) s = .next (s.afterAnswer (.signExtend v n) r) ∧
      hostReading { request := .signExtend v n, response := r } =
        if v.toNat < 2 ^ (n.toNat - 1) then (v.toNat : Int) else (v.toNat : Int) - 2 ^ n.toNat

/-- The values of the first table of `41_sign_extend.md` R87 and of its corner cases. -/
def Obligations.SignExtendWorkedValues : Prop :=
  ∀ s : State,
    exec (.signExtend 511 10) s = .next (s.afterAnswer (.signExtend 511 10) 0x000001FF#32) ∧
    exec (.signExtend 512 10) s = .next (s.afterAnswer (.signExtend 512 10) 0xFFFFFE00#32) ∧
    exec (.signExtend 1023 10) s = .next (s.afterAnswer (.signExtend 1023 10) 0xFFFFFFFF#32) ∧
    exec (.signExtend 2047 12) s = .next (s.afterAnswer (.signExtend 2047 12) 0x000007FF#32) ∧
    exec (.signExtend 2048 12) s = .next (s.afterAnswer (.signExtend 2048 12) 0xFFFFF800#32) ∧
    exec (.signExtend 1 1) s = .next (s.afterAnswer (.signExtend 1 1) 0xFFFFFFFF#32) ∧
    exec (.signExtend 0x40000000 31) s = .next (s.afterAnswer (.signExtend 0x40000000 31) 0xC0000000#32) ∧
    exec (.signExtend 0x80000000 33) s = .next (s.afterAnswer (.signExtend 0x80000000 33) 0x80000000#32)

/-! ### `extract_be_lsb_signed` (`42_extract_signed.md`) -/

/-- R91: the response of the signed extraction is the response of `sign_extend` on the response of the extraction with the
same length. -/
def Obligations.SignedExtractIsTheComposition : Prop :=
  ∀ (s : State) (data : Option Frame) (start length : Byte), ∃ v r : Word,
    exec (.extractBeLsb data start length) s = .next (s.afterAnswer (.extractBeLsb data start length) v) ∧
    exec (.signExtend v length) s = .next (s.afterAnswer (.signExtend v length) r) ∧
    exec (.extractBeLsbSigned data start length) s = .next (s.afterAnswer (.extractBeLsbSigned data start length) r)

/-- A degenerate signed extraction, the absent frame among them, answers 0, which `42_extract_signed.md` R92 and R93
derive. -/
def Obligations.DegenerateSignedExtractAnswersZero : Prop :=
  ∀ (s : State) (data : Option Frame) (start length : Byte),
    (length.toNat = 0 ∨ 32 < length.toNat ∨ 64 ≤ start.toNat ∨ data = none) →
    exec (.extractBeLsbSigned data start length) s = .next (s.afterAnswer (.extractBeLsbSigned data start length) 0#32)

/-- For `1 <= length <= 31` the host reads the raw field in two's complement of that length (`41_sign_extend.md` R82 through
`42_extract_signed.md` R90). -/
def Obligations.SignedExtractReadsTheFieldInTwosComplement : Prop :=
  ∀ (s : State) (data : Option Frame) (start length : Byte), 1 ≤ length.toNat → length.toNat ≤ 31 → ∃ v r : Word,
    exec (.extractBeLsb data start length) s = .next (s.afterAnswer (.extractBeLsb data start length) v) ∧
    exec (.extractBeLsbSigned data start length) s = .next (s.afterAnswer (.extractBeLsbSigned data start length) r) ∧
    hostReading { request := .extractBeLsbSigned data start length, response := r } =
      if v.toNat < 2 ^ (length.toNat - 1) then (v.toNat : Int) else (v.toNat : Int) - 2 ^ length.toNat

/-- A field of 32 bits is answered as extracted, and a field of one bit reads 0 or -1, which `42_extract_signed.md` R94
derives. -/
def Obligations.SignedExtractOfFullAndOneBitFields : Prop :=
  (∀ (s : State) (data : Option Frame) (start : Byte), ∃ v : Word,
    exec (.extractBeLsb data start 32#8) s = .next (s.afterAnswer (.extractBeLsb data start 32#8) v) ∧
    exec (.extractBeLsbSigned data start 32#8) s = .next (s.afterAnswer (.extractBeLsbSigned data start 32#8) v)) ∧
  (∀ (s : State) (d : Frame) (start : Byte), start.toNat ≤ 63 →
    exec (.extractBeLsbSigned (some d) start 1#8) s =
      .next (s.afterAnswer (.extractBeLsbSigned (some d) start 1#8)
        (if placeBit d (startPlace start) then 0xFFFFFFFF#32 else 0#32)))

/-- A signed field that overruns is the raw partial value and never negative, which `42_extract_signed.md` R95 derives. -/
def Obligations.SignedOverrunIsThePartialValue : Prop :=
  ∀ (s : State) (d : Frame) (start length : Byte), start.toNat ≤ 63 → avail start < length.toNat → length.toNat ≤ 32 →
    ∃ v : Word, exec (.extractBeLsb (some d) start length) s = .next (s.afterAnswer (.extractBeLsb (some d) start length) v) ∧
      exec (.extractBeLsbSigned (some d) start length) s =
        .next (s.afterAnswer (.extractBeLsbSigned (some d) start length) v) ∧
      0 ≤ hostReading { request := .extractBeLsbSigned (some d) start length, response := v }

/-! ### Anomalies (`60_exceptions.md`) -/

/-- The anomalies of class (a) and the absent frame make both extractions answer 0, however many hold at once, and an
overrun holds only alone (`60_exceptions.md` R103, R107). -/
def Obligations.AnomaliesOfAnExtractionAnswerZero : Prop :=
  ∀ (s : State) (data : Option Frame) (start length : Byte),
    ((∃ x ∈ extractAnomalies data start length, x.class = .a ∨ x.class = .likeA) →
      exec (.extractBeLsb data start length) s = .next (s.afterAnswer (.extractBeLsb data start length) 0#32) ∧
      exec (.extractBeLsbSigned data start length) s =
        .next (s.afterAnswer (.extractBeLsbSigned data start length) 0#32)) ∧
    (.fieldOverrun ∈ extractAnomalies data start length → extractAnomalies data start length = [.fieldOverrun])

/-- R100: no step has a fault outcome; a non-reserved request has exactly one outcome, a response. -/
def Obligations.NonReservedRequestHasExactlyOneOutcome : Prop :=
  (∀ (s : State) (f : Fault), step s ≠ .fault f) ∧
  (∀ (s : State) (w : ReqWord) (rest : List ReqWord), s.requests = w :: rest → ReqWord.WellFormed w →
    ∃ (i : Instr) (v : Word), decode w = .ok i ∧ step s = .next (State.afterAnswer { s with requests := rest } i v))

/-! ### The machine -/

/-- A step takes the host's next request, and when it decodes to an instruction the step is that instruction's meaning in
the state without it (`30_encoding.md` R40). -/
def Obligations.StepRunsTheDecodedRequest : Prop :=
  ∀ (s : State) (w : ReqWord) (rest : List ReqWord) (i : Instr), s.requests = w :: rest → decode w = .ok i →
    step s = exec i { requests := rest, observed := s.observed }

/-- The model's choice (log 2): with no request presented a step changes nothing. -/
def Obligations.StepWithoutARequestChangesNothing : Prop := ∀ s : State, s.requests = [] → step s = .next s

/-- The model's choice (log 11): a table word loaded by `withFetchWord` is the next request answered. -/
def Obligations.LoadedWordRunsNext : Prop :=
  ∀ (s : State) (w : Nat) (i : Instr), decodeTableWord 128 w = some i → step (s.withFetchWord 128 w) = exec i s

/-- `20_memory.md` R33: every instruction completes in every state, with a response that is a function of its own operands
alone; it changes neither the requests to come nor any earlier exchange. -/
def Obligations.ResponseDependsOnTheRequestAlone : Prop :=
  ∀ i : Instr, ∃ v : Word, ∀ s : State, exec i s = .next (s.afterAnswer i v)

/-- Every instruction completes in every state with the response the derived closed forms give
(`40_extract.md` R66; `41_sign_extend.md` R80 to R83; `42_extract_signed.md` R90). The closed form of a `sign_extend` whose
value has bits at or above `bit_length` rests on the spec's own choice (`92_eei_decisions.md` D15; log 8, DESIGN CHOICE). -/
def Obligations.EveryInstructionAnswersItsClosedForm : Prop :=
  ∀ (s : State) (i : Instr), exec i s = .next (s.afterAnswer i (closedResponse i))

/-- `70_reset_and_hazards.md` R120: nothing is held after reset, and an instruction answers the same from reset as from any
other state. The empty list of requests is the model's choice (log 4). -/
def Obligations.ResetChangesNoResponse : Prop :=
  State.reset.observed = [] ∧ State.reset.requests = [] ∧
  ∀ (i : Instr) (s t u : State), exec i State.reset = .next t → exec i s = .next u →
    t.observed.getLast? = u.observed.getLast?

/-- The invariant of a run: every step keeps every response observed the one its own request demands (of a `sign_extend`
with a value wider than `bit_length`, the one of D15; log 8, DESIGN CHOICE). -/
def Obligations.StepKeepsObservedRight : Prop :=
  ∀ s t : State, s.ObservedRight → step s = .next t → t.ObservedRight

/-- The run after reset meets both invariants. -/
def Obligations.ResetMeetsTheInvariants : Prop := State.reset.ObservedRight ∧ State.reset.HostKeepsDuty

/-- `70_reset_and_hazards.md` R128: while the host issues no reserved encoding every step has a next state, in which the
host has still kept its duty. -/
def Obligations.StepsNeverStopWhileTheHostKeepsItsDuty : Prop :=
  ∀ s : State, s.HostKeepsDuty → ∃ t : State, step s = .next t ∧ t.HostKeepsDuty

/-- A run answers the requests one for one, in their order, each with the response it alone demands, whatever the state it
starts from (`00_scope.md` R9, `30_encoding.md` R40, `70_reset_and_hazards.md` R129). What a `sign_extend` with a value
wider than `bit_length` demands is D15's (log 8, DESIGN CHOICE). -/
def Obligations.RunAnswersEveryRequestInOrder : Prop :=
  ∀ (s : State) (ws rest : List ReqWord) (is : List Instr), s.requests = ws ++ rest → ws.map decode = is.map .ok →
    Host.Core.run core ws.length s = .next { requests := rest, observed := s.observed ++ is.map rightExchange }

/-- A program issued by the host after what it has already chosen is carried out whole, top to bottom
(`30_encoding.md` R54, `70_reset_and_hazards.md` R129). The response to a `sign_extend` with a value wider than
`bit_length` is D15's (log 8, DESIGN CHOICE). -/
def Obligations.IssuedProgramRunsTopToBottom : Prop :=
  ∀ (s : State) (is : List Instr), s.requests = [] →
    Host.Core.run core is.length (s.presentAll is) =
      .next { requests := [], observed := s.observed ++ is.map rightExchange }

/-- `60_exceptions.md` R112: instances share nothing: a step of one leaves every other as it was, and is that one's own
step (the row of instances is the model's own, log 6, and so is what a refused step of one does to the row, of which this
says nothing). -/
def Obligations.InstancesShareNothing : Prop :=
  ∀ (ss : List State) (j : Nat) (s t : State), ss[j]? = some s → step s = .next t →
    ∃ ts : List State, stepInstance ss j = .next ts ∧ ts.length = ss.length ∧ ts[j]? = some t ∧
      ∀ k : Nat, k ≠ j → ts[k]? = ss[k]?
end

