-- ==== Sys2Proof/Laws/Decode.lean ====
section
/-! SUPPORT. The fields of a request word and the masks that select them, once for all. -/

namespace Sys2Proof

/-! ### A field and its mask -/

@[simp] theorem fieldAt_getElem (N k : Nat) {n : Nat} (x : BitVec n) (i : Nat) (hi : i < N) :
    (fieldAt N k x)[i] = (decide (k ≤ i) && x.getLsbD (i - k)) := by
  by_cases hk : k ≤ i
  · simp [fieldAt, hk, Nat.not_lt.mpr hk]
  · simp [fieldAt, hk, Nat.not_le.mp hk]

@[simp] theorem fieldAt_getLsbD (N k : Nat) {n : Nat} (x : BitVec n) (i : Nat) :
    (fieldAt N k x).getLsbD i = (decide (i < N) && decide (k ≤ i) && x.getLsbD (i - k)) := by
  by_cases hi : i < N
  · simp [hi]
  · simp [hi, BitVec.getLsbD_of_ge _ _ (Nat.not_lt.mp hi)]

/-- Masking a word with a field of ones leaves that field. -/
theorem and_fieldAt_allOnes {N : Nat} (w : BitVec N) (k n : Nat) :
    w &&& fieldAt N k (BitVec.allOnes n) = fieldAt N k (w.extractLsb' k n) := by
  apply BitVec.eq_of_getLsbD_eq
  intro i hi
  by_cases hk : k ≤ i
  · have : k + (i - k) = i := by omega
    by_cases hn : i - k < n <;> simp [hi, hk, hn, this]
  · simp [hi, hk]

/-- A field that fits determines its contents. -/
theorem fieldAt_inj {N k n : Nat} (h : k + n ≤ N) (x y : BitVec n) : fieldAt N k x = fieldAt N k y ↔ x = y := by
  refine ⟨fun hxy => BitVec.eq_of_getLsbD_eq fun i hi => ?_, fun hxy => by rw [hxy]⟩
  have := congrArg (fun w => BitVec.getLsbD w (k + i)) hxy
  have hki : k + i < N := by omega
  simpa [hki, hi] using this

/-- Reading a field where it was put gives it back. -/
theorem extractLsb'_fieldAt_self {N k n : Nat} (h : k + n ≤ N) (x : BitVec n) :
    (fieldAt N k x).extractLsb' k n = x := by
  apply BitVec.eq_of_getLsbD_eq
  intro i hi
  have hki : k + i < N := by omega
  simp [hi, hki]

/-- Reading above or below a field gives 0. -/
theorem extractLsb'_fieldAt_other {N k n : Nat} (x : BitVec n) {j m : Nat} (h : j + m ≤ k ∨ k + n ≤ j) :
    (fieldAt N k x).extractLsb' j m = 0#m := by
  apply BitVec.eq_of_getLsbD_eq
  intro i hi
  by_cases hk : k ≤ j + i
  · have hn : n ≤ j + i - k := by omega
    simp [hi, BitVec.getLsbD_of_ge _ _ hn]
  · simp [hi, hk]

/-! ### The checks of a request word, by its fields -/

theorem rsv0Clear_iff (w : ReqWord) : ReqWord.Rsv0Clear w ↔ w.rsv0 = 0#5 := by
  have h1 : 0xF8000000000000000000000000000000#128 = fieldAt 128 123 (BitVec.allOnes 5) := by decide
  have h2 : 0#128 = fieldAt 128 123 0#5 := by decide
  rw [ReqWord.Rsv0Clear, h1, and_fieldAt_allOnes, h2, fieldAt_inj (by decide)]
  rfl

theorem rsv1Clear_iff (w : ReqWord) : ReqWord.Rsv1Clear w ↔ w.rsv1 = 0#8 := by
  have h1 : 0x000000FF000000000000000000000000#128 = fieldAt 128 96 (BitVec.allOnes 8) := by decide
  have h2 : 0#128 = fieldAt 128 96 0#8 := by decide
  rw [ReqWord.Rsv1Clear, h1, and_fieldAt_allOnes, h2, fieldAt_inj (by decide)]
  rfl

theorem opDefined_iff (w : ReqWord) : ReqWord.OpDefined w ↔ w.fields.OpDefined := by
  have h1 : 0x03000000000000000000000000000000#128 = fieldAt 128 120 (BitVec.allOnes 2) := by decide
  have h2 : BitVec.allOnes 2 = 3#2 := by decide
  rw [ReqWord.OpDefined, h1, and_fieldAt_allOnes, Ne, fieldAt_inj (by decide), h2]
  rfl

/-! ### Unpacking what was packed -/

theorem extractLsb'_or' {N : Nat} (x y : BitVec N) (k n : Nat) :
    (x ||| y).extractLsb' k n = x.extractLsb' k n ||| y.extractLsb' k n := by
  apply BitVec.eq_of_getLsbD_eq
  intro i hi
  simp [hi]

@[simp] theorem word_rsv0 (r : Request) : r.word.rsv0 = 0#5 := by
  simp [ReqWord.rsv0, Request.word, extractLsb'_or', extractLsb'_fieldAt_other]

@[simp] theorem word_rsv1 (r : Request) : r.word.rsv1 = 0#8 := by
  simp [ReqWord.rsv1, Request.word, extractLsb'_or', extractLsb'_fieldAt_other]

/-- The word of six fields has those fields. -/
@[simp] theorem word_fields (r : Request) : r.word.fields = r := by
  cases r
  simp [ReqWord.fields, Request.word, extractLsb'_or', extractLsb'_fieldAt_other, extractLsb'_fieldAt_self]

end Sys2Proof
end

