-- ==== Sys2Proof/Laws/State.lean ====
section
/-! SUPPORT. One lemma per field per update of State. -/

namespace Sys2Proof.Machine

@[simp] theorem State.afterAnswer_requests (s : State) (i : Instr) (v : Word) :
    (s.afterAnswer i v).requests = s.requests := rfl

@[simp] theorem State.afterAnswer_observed (s : State) (i : Instr) (v : Word) :
    (s.afterAnswer i v).observed = s.observed ++ [{ request := i, response := v }] := rfl

@[simp] theorem State.present_requests (s : State) (w : ReqWord) : (s.present w).requests = s.requests ++ [w] := rfl

@[simp] theorem State.present_observed (s : State) (w : ReqWord) : (s.present w).observed = s.observed := rfl

@[simp] theorem State.presentAll_requests (s : State) (is : List Instr) :
    (s.presentAll is).requests = s.requests ++ is.map encode := rfl

@[simp] theorem State.presentAll_observed (s : State) (is : List Instr) : (s.presentAll is).observed = s.observed := rfl

@[simp] theorem State.presentFirst_requests (s : State) (w : ReqWord) : (s.presentFirst w).requests = w :: s.requests := rfl

@[simp] theorem State.presentFirst_observed (s : State) (w : ReqWord) : (s.presentFirst w).observed = s.observed := rfl

@[simp] theorem State.reset_requests : State.reset.requests = [] := rfl

@[simp] theorem State.reset_observed : State.reset.observed = [] := rfl

end Sys2Proof.Machine
end

