-- ==== Sys2Proof/Laws/Ops.lean ====
section
/-! SUPPORT. What each shared operation does, one lemma each. -/

namespace Sys2Proof.Machine

/-! ### The request and the response -/

/-- An answer is the run with one exchange more, and nothing else changed. -/
@[simp] theorem answer_eq (i : Instr) (v : Word) (s : State) : answer i v s = .next (s.afterAnswer i v) := rfl

@[simp] theorem takeRequest_of_nil {s : State} (h : s.requests = []) : takeRequest s = none := by
  simp [takeRequest, h]

@[simp] theorem takeRequest_of_cons {s : State} {w : ReqWord} {rest : List ReqWord} (h : s.requests = w :: rest) :
    takeRequest s = some (w, { s with requests := rest }) := by
  simp [takeRequest, h]

/-- Taking a request either finds none, or takes the first and leaves the rest and the observation as they were. -/
theorem takeRequest_cases (s : State) :
    (s.requests = [] ∧ takeRequest s = none) ∨
    (∃ w rest, s.requests = w :: rest ∧ takeRequest s = some (w, { s with requests := rest })) := by
  cases h : s.requests with
  | nil => exact .inl ⟨rfl, takeRequest_of_nil h⟩
  | cons w rest => exact .inr ⟨w, rest, rfl, takeRequest_of_cons h⟩

/-- A refusal is one of the two names of a reserved request. -/
theorem refuse_cases (r : Reserved) : refuse r = .refused .reservedOp ∨ refuse r = .refused .reservedBit := by
  cases r
  · exact .inl rfl
  · exact .inr rfl

/-! ### One bit in its place -/

/-- The mask `1 << i` has bit `i` set and no other. -/
theorem one_shiftLeft_getLsbD (i : Nat) {j : Nat} (hj : j < 32) : (1#32 <<< i).getLsbD j = decide (i = j) := by
  rcases Nat.lt_trichotomy i j with h | h | h
  · have h1 : ¬(j < i) := by omega
    have h2 : j - i ≠ 0 := by omega
    have h3 : i ≠ j := by omega
    simp [h1, h2, h3, hj]
  · subst h
    simp [hj]
  · have h3 : i ≠ j := by omega
    simp [h, h3]

/-! ### The traversal -/

@[simp] theorem advance_of_pos {p : Place} (h : 0 < p.bit) : advance p = { byte := p.byte, bit := p.bit - 1 } := by
  simp [advance, h]

@[simp] theorem advance_of_zero {p : Place} (h : p.bit = 0) : advance p = { byte := p.byte + 1, bit := 7 } := by
  simp [advance, h]

/-- The step stays inside a byte or goes on to bit 7 of the next one. -/
theorem advance_cases (p : Place) :
    (0 < p.bit ∧ (advance p).byte = p.byte ∧ (advance p).bit = p.bit - 1) ∨
    (p.bit = 0 ∧ (advance p).byte = p.byte + 1 ∧ (advance p).bit = 7) := by
  rcases Nat.eq_zero_or_pos p.bit with h | h
  · exact .inr ⟨h, by simp [h], by simp [h]⟩
  · exact .inl ⟨h, by simp [h], by simp [h]⟩

@[simp] theorem trav_zero (s : Byte) : trav s 0 = startPlace s := rfl

@[simp] theorem trav_succ (s : Byte) (i : Nat) : trav s (i + 1) = advance (trav s i) := rfl

@[simp] theorem startPlace_byte (s : Byte) : (startPlace s).byte = s.toNat / 8 := rfl

@[simp] theorem startPlace_bit (s : Byte) : (startPlace s).bit = s.toNat % 8 := rfl

/-- The bit index of a visited place never exceeds 7. -/
theorem trav_bit_le (s : Byte) (i : Nat) : (trav s i).bit ≤ 7 := by
  induction i with
  | zero => simp only [trav_zero, startPlace_bit]; omega
  | succ i ih => rcases advance_cases (trav s i) with h | h <;> simp only [trav_succ] <;> omega

/-- The byte index never decreases along the traversal. -/
theorem trav_byte_le_succ (s : Byte) (i : Nat) : (trav s i).byte ≤ (trav s (i + 1)).byte := by
  rcases advance_cases (trav s i) with h | h <;> simp only [trav_succ] <;> omega

/-! ### Reading the frame -/

/-- `FrameBit` is the bit of weight `2^k`, as a byte. -/
theorem frameBit_eq (d : Frame) (b : Fin 8) (k : Nat) : frameBit d b k = if d[b.val].getLsbD k then 1#8 else 0#8 := by
  apply BitVec.eq_of_getLsbD_eq
  intro i hi
  rcases Nat.eq_zero_or_pos i with rfl | hp
  · cases h : d[b.val].getLsbD k <;> simp [frameBit, memRead, h]
  · have : i ≠ 0 := by omega
    split <;> simp [frameBit, memRead, BitVec.getLsbD_one, this]

/-- `FrameBit` is 1 exactly when the bit of weight `2^k` is set. -/
theorem frameBit_eq_one_iff (d : Frame) (b : Fin 8) (k : Nat) : frameBit d b k = 1#8 ↔ d[b.val].getLsbD k = true := by
  rw [frameBit_eq]
  split <;> simp_all

/-- The bit at a place of the frame. -/
theorem placeBit_of_lt (d : Frame) {p : Place} (h : p.byte < 8) : placeBit d p = (d[p.byte]'h).getLsbD p.bit := by
  have := frameBit_eq_one_iff d ⟨p.byte, h⟩ p.bit
  simp only [placeBit, h, dite_true]
  rw [Bool.eq_iff_iff, beq_iff_eq, this]

/-- A place outside the frame contributes 0. -/
@[simp] theorem placeBit_of_ge (d : Frame) {p : Place} (h : 8 ≤ p.byte) : placeBit d p = false := by
  simp [placeBit, Nat.not_lt.mpr h]

/-- Past the end of the frame every further place contributes 0. -/
theorem placeBit_trav_of_ge (d : Frame) (s : Byte) {i j : Nat} (hij : i ≤ j) (h : 8 ≤ (trav s i).byte) :
    placeBit d (trav s j) = false := by
  have hmono : ∀ n, (trav s i).byte ≤ (trav s (i + n)).byte := by
    intro n
    induction n with
    | zero => exact Nat.le_refl _
    | succ n ih => exact Nat.le_trans ih (trav_byte_le_succ s (i + n))
  obtain ⟨n, rfl⟩ := Nat.exists_eq_add_of_le hij
  exact placeBit_of_ge d (Nat.le_trans h (hmono n))

end Sys2Proof.Machine
end

