-- ==== Sys2Proof/Laws/Extract.lean ====
section
/-! SUPPORT. What the loop of `extract_be_lsb` gathers, once for all (`40_extract.md` R60). -/

namespace Sys2Proof.Machine

/-- One turn of the loop sets the accumulator's bit `i` when the bit read is 1. -/
theorem accumulate_getLsbD (c : Prop) [Decidable c] (acc : Word) (i j : Nat) (hj : j < 32) :
    (if c then acc ||| (1#32 <<< i) else acc).getLsbD j = (acc.getLsbD j || (decide (i = j) && decide c)) := by
  by_cases h : c <;> simp [h, one_shiftLeft_getLsbD i hj]

/-- The loop from its `i`-th turn on adds the bits of the places visited in turns `i` to `i + n - 1`, each at its own turn's
weight, and keeps the accumulator's. -/
theorem gather_getLsbD (d : Frame) (s : Byte) (n i j : Nat) (acc : Word) (hj : j < 32) :
    (gather d n i (trav s i) acc).getLsbD j =
      (acc.getLsbD j || (decide (i ≤ j ∧ j < i + n) && placeBit d (trav s j))) := by
  induction n generalizing i acc with
  | zero =>
    have h : decide (i ≤ j ∧ j < i + 0) = false := by rw [decide_eq_false_iff_not]; omega
    rw [h]
    simp [gather]
  | succ n ih =>
    by_cases hb : (trav s i).byte < 8
    · have hbit : decide (frameBit d ⟨(trav s i).byte, hb⟩ (trav s i).bit = 1#8) = placeBit d (trav s i) := by
        simp [placeBit, hb, beq_eq_decide]
      simp only [gather, hb, dite_true]
      rw [← trav_succ, ih, accumulate_getLsbD _ _ _ _ hj, hbit]
      by_cases hij : i = j
      · subst hij
        have h1 : decide (i + 1 ≤ i ∧ i < i + 1 + n) = false := by rw [decide_eq_false_iff_not]; omega
        rw [h1]
        simp
      · have h1 : decide (i + 1 ≤ j ∧ j < i + 1 + n) = decide (i ≤ j ∧ j < i + (n + 1)) := by
          rw [decide_eq_decide]; omega
        rw [h1]
        simp [hij]
    · simp only [gather, hb, dite_false]
      by_cases h : i ≤ j
      · simp [placeBit_trav_of_ge d s h (Nat.not_lt.mp hb)]
      · simp [h]

/-- A degenerate extraction gives 0 (`40_extract.md` R61). -/
@[simp] theorem extractBeLsb_of_degenerate (data : Option Frame) {start length : Byte} (h : degenerate start length = true) :
    extractBeLsb data start length = 0#32 := by
  cases data <;> simp [extractBeLsb, h]

/-- An absent frame gives 0 (`40_extract.md` R61). -/
@[simp] theorem extractBeLsb_of_absent (start length : Byte) : extractBeLsb none start length = 0#32 := rfl

/-- The bits of an extraction that is not degenerate: the place visited in turn `j`, for `j` below the length. -/
theorem extractBeLsb_getLsbD (d : Frame) {start length : Byte} (h : degenerate start length = false) {j : Nat} (hj : j < 32) :
    (extractBeLsb (some d) start length).getLsbD j = (decide (j < length.toNat) && placeBit d (trav start j)) := by
  have := gather_getLsbD d start length.toNat 0 j 0#32 hj
  simpa [extractBeLsb, h] using this

end Sys2Proof.Machine
end

