-- ==== Sys2Proof/Laws/PerInstr.lean ====
section
/-! SUPPORT. The family `EncodeNotReserved`: the word of an instruction is one the host may present
(`30_encoding.md` R51; `70_reset_and_hazards.md` R124). -/

namespace Sys2Proof.Laws.EncodeNotReserved

/-- The encoded instruction has its reserved bits clear and a defined `OP`. -/
def Statement (i : Instr) : Prop := ReqWord.WellFormed (encode i)

/-- A word built from fields is well formed when its `OP` is defined. -/
theorem word_wellFormed (r : Request) (h : r.OpDefined) : ReqWord.WellFormed r.word :=
  ⟨(rsv0Clear_iff _).mpr (word_rsv0 r), (rsv1Clear_iff _).mpr (word_rsv1 r), (opDefined_iff _).mpr (by simpa using h)⟩

theorem extractBeLsb (data : Option Frame) (startBit length : Byte) : Statement (.extractBeLsb data startBit length) :=
  word_wellFormed _ (show (0#2 : BitVec 2) ≠ 3#2 by decide)

theorem extractBeLsbSigned (data : Option Frame) (startBit length : Byte) :
    Statement (.extractBeLsbSigned data startBit length) :=
  word_wellFormed _ (show (1#2 : BitVec 2) ≠ 3#2 by decide)

theorem signExtend (value : Word) (bitLength : Byte) : Statement (.signExtend value bitLength) :=
  word_wellFormed _ (show (2#2 : BitVec 2) ≠ 3#2 by decide)

end Sys2Proof.Laws.EncodeNotReserved
end

