-- ==== Sys2Proof/Laws/SignExtend.lean ====
section
/-! SUPPORT. The signed reading and the masks of `sign_extend`, once for all (`41_sign_extend.md` R80). -/

namespace Sys2Proof.Machine

/-- The signed reading is the two's-complement value of the word. -/
theorem toSigned32_eq_toInt (u : Word) : toSigned32 u = u.toInt := by
  simp only [toSigned32, BitVec.toInt]
  split <;> split <;> omega

/-- The pattern of the signed reading is the word itself: no bit changes (`00_scope.md` R7). -/
@[simp] theorem toUnsigned32_toSigned32 (u : Word) : toUnsigned32 (toSigned32 u) = u := by
  rw [toUnsigned32, toSigned32_eq_toInt, BitVec.ofInt_toInt]

/-- The sign-bit mask selects bit `n - 1`. -/
theorem and_signBitMask_ne_zero_iff (v : Word) (n : Byte) (h : n.toNat - 1 < 32) :
    v &&& signBitMask n ≠ 0#32 ↔ v.getLsbD (n.toNat - 1) = true := by
  constructor
  · intro hne
    by_contra hb
    apply hne
    apply BitVec.eq_of_getLsbD_eq
    intro i hi
    by_cases hin : n.toNat - 1 = i
    · simp_all
    · rw [BitVec.getLsbD_and, signBitMask, one_shiftLeft_getLsbD _ hi]
      simp [hin]
  · intro hb hz
    have := congrArg (fun w => BitVec.getLsbD w (n.toNat - 1)) hz
    simp only [BitVec.getLsbD_and, signBitMask, one_shiftLeft_getLsbD _ h, hb] at this
    simp at this

/-- The fill mask is bits 31 down to `n`. -/
theorem fillMask_getLsbD (n : Byte) (h : n.toNat ≤ 31) (i : Nat) :
    (fillMask n).getLsbD i = (decide (i < 32) && decide (n.toNat ≤ i)) := by
  have hlt : 2 ^ n.toNat < 2 ^ 32 := Nat.pow_lt_pow_right (by decide) (by omega)
  have hone : (1#32 <<< n.toNat).toNat = 2 ^ n.toNat := by
    simpa [BitVec.toNat_shiftLeft, Nat.shiftLeft_eq] using hlt
  have hpos := Nat.two_pow_pos n.toNat
  have hsub : ((1#32 <<< n.toNat) - 1#32).toNat = 2 ^ n.toNat - 1 := by
    rw [BitVec.toNat_sub, hone]
    simp
    omega
  by_cases hi : i < 32
  · rw [fillMask, BitVec.getLsbD_not, BitVec.getLsbD, hsub, Nat.testBit_two_pow_sub_one]
    by_cases hn : n.toNat ≤ i <;> simp [hi, hn, Nat.not_lt.mpr, Nat.not_le.mp]
  · simp [hi, BitVec.getLsbD_of_ge _ _ (Nat.not_lt.mp hi)]

/-- The response of `sign_extend`: the value, with bits 31 down to the length set when the sign bit is. -/
theorem toUnsigned32_signExtend (v : Word) (n : Byte) :
    toUnsigned32 (signExtend v n) =
      if n.toNat = 0 ∨ 32 ≤ n.toNat then v
      else if v.getLsbD (n.toNat - 1) then v ||| fillMask n else v := by
  unfold signExtend
  by_cases h0 : n.toNat = 0
  · simp [h0]
  by_cases h32 : 32 ≤ n.toNat
  · simp [h0, h32]
  have h := and_signBitMask_ne_zero_iff v n (by omega)
  cases hb : v.getLsbD (n.toNat - 1)
  · have : ¬ v &&& signBitMask n ≠ 0#32 := by rw [h, hb]; simp
    simp only [h0, h32, this, if_false, or_self, Bool.false_eq_true, toUnsigned32_toSigned32]
  · have : v &&& signBitMask n ≠ 0#32 := h.mpr hb
    simp only [h0, h32, this, if_false, or_self, ne_eq, not_false_iff, if_true, toUnsigned32_toSigned32]

end Sys2Proof.Machine
end

