-- ==== Sys2Proof/Laws/Step.lean ====
section
/-! SUPPORT. What a step can do, once for all. -/

namespace Sys2Proof.Machine

/-- The response of an instruction, in the model's own terms. -/
def response (i : Instr) : Word :=
  match i with
  | .extractBeLsb data startBit length => extractBeLsb data startBit length
  | .extractBeLsbSigned data startBit length => toUnsigned32 (extractBeLsbSigned data startBit length)
  | .signExtend value bitLength => toUnsigned32 (signExtend value bitLength)

/-- Every instruction answers with its response and changes nothing else. -/
theorem exec_eq (i : Instr) (s : State) : exec i s = .next (s.afterAnswer i (response i)) := by
  cases i <;> rfl

theorem step_of_nil {s : State} (h : s.requests = []) : step s = .next s := by
  simp [step, takeRequest_of_nil h, idle]

theorem step_of_ok {s : State} {w : ReqWord} {rest : List ReqWord} {i : Instr} (h : s.requests = w :: rest)
    (hd : decode w = .ok i) : step s = exec i { s with requests := rest } := by
  simp [step, takeRequest_of_cons h, hd]

theorem step_of_error {s : State} {w : ReqWord} {rest : List ReqWord} {r : Reserved} (h : s.requests = w :: rest)
    (hd : decode w = .error r) : step s = refuse r := by
  simp [step, takeRequest_of_cons h, hd]

/-- A step that answers a next state either had no request and changed nothing, or answered the next request, which decodes
to an instruction, with that instruction's response, and left the later requests and the earlier exchanges as they were. -/
theorem step_next_cases {s t : State} (h : step s = .next t) :
    (s.requests = [] ∧ t = s) ∨
    (∃ w rest i, s.requests = w :: rest ∧ decode w = .ok i ∧
      t = State.afterAnswer { s with requests := rest } i (response i)) := by
  rcases takeRequest_cases s with ⟨hn, -⟩ | ⟨w, rest, hw, -⟩
  · rw [step_of_nil hn] at h
    exact .inl ⟨hn, by injection h with h; exact h.symm⟩
  · cases hd : decode w with
    | error r =>
      rw [step_of_error hw hd] at h
      rcases refuse_cases r with hr | hr <;> rw [hr] at h <;> cases h
    | ok i =>
      rw [step_of_ok hw hd, exec_eq] at h
      exact .inr ⟨w, rest, i, hw, hd, by injection h with h; exact h.symm⟩

end Sys2Proof.Machine
end

