-- ==== Sys2Proof/Laws/Text.lean ====
section
/-! SUPPORT. Writing a number and reading it back, and the tokens of a written word, once for all (`30_encoding.md` R54). -/

namespace Sys2Proof.Machine.Text

/-- A hexadecimal digit reads as its value. -/
theorem digitValue_hexChar : ∀ n : Fin 16, digitValue (hexChar n.val) = some n.val := by decide

/-- One more digit at the end of a number. -/
theorem readDigits_append {cs : List Char} {acc r : Nat} (hr : readDigits 16 acc cs = some r) {n : Nat} (h : n < 16) :
    readDigits 16 acc (cs ++ [hexChar n]) = some (r * 16 + n) := by
  induction cs generalizing acc with
  | nil =>
    have hd := digitValue_hexChar ⟨n, h⟩
    injection hr with hr
    subst hr
    simp [readDigits, hd, h]
  | cons c cs ih =>
    simp only [List.cons_append, readDigits] at hr ⊢
    cases hd : digitValue c with
    | none => simp [hd] at hr
    | some d =>
      simp only [hd] at hr ⊢
      split at hr
      · rename_i hlt
        simp only [hlt, if_true]
        exact ih hr
      · cases hr

/-- The digits written for a value read as its low `4 * k` bits. -/
theorem readDigits_hexDigits (k v : Nat) : readDigits 16 0 (hexDigits k v) = some (v % 16 ^ k) := by
  induction k generalizing v with
  | zero => simp [hexDigits, readDigits, Nat.mod_one]
  | succ k ih =>
    rw [hexDigits, readDigits_append (ih (v / 16)) (Nat.mod_lt _ (by decide))]
    congr 1
    rw [Nat.pow_succ, Nat.mul_comm (16 ^ k), Nat.mod_mul]
    omega

theorem hexDigits_length (k v : Nat) : (hexDigits k v).length = k := by
  induction k generalizing v with
  | zero => rfl
  | succ k ih => simp [hexDigits, ih]

/-- A number written in hexadecimal with enough digits reads back. -/
theorem readBits_writeHex {w k v : Nat} (hk : 0 < k) (hw : v < 2 ^ w) (hv : v < 16 ^ k) :
    readBits w (writeHex k v) = some (BitVec.ofNat w v) := by
  have hlen := hexDigits_length k v
  have hread := readDigits_hexDigits k v
  have : readNat (writeHex k v) = some v := by
    unfold writeHex
    cases h : hexDigits k v with
    | nil => rw [h] at hlen; simp at hlen; omega
    | cons c cs =>
      rw [h, Nat.mod_eq_of_lt hv] at hread
      exact hread
  simp [readBits, this, hw]

/-- A word that stands before a mark is one token. -/
theorem tokens_word (cs : List Char) (h : ∀ c ∈ cs, (c.isAlphanum || c == '_') = true) (pending rest : List Char) :
    tokens pending (cs ++ rest) = tokens (cs.reverse ++ pending) rest := by
  induction cs generalizing pending with
  | nil => rfl
  | cons c cs ih =>
    simp only [List.cons_append, tokens, h c (by simp), if_true]
    rw [ih fun d hd => h d (by simp [hd])]
    simp

end Sys2Proof.Machine.Text
end

