-- ==== Sys2Proof/Tests/Slice0.lean ====
section
/-! SUPPORT. Tests against the spec's own vectors (`95_test_vectors.md`; the row is named at each test), and one witness for
the hypotheses of each statement that has any. -/

namespace Sys2Proof.Machine.Tests

/-! ### Small helpers -/

/-- A run with the given requests still to be presented. -/
def pending (ws : List ReqWord) : State := { requests := ws, observed := [] }

/-- The response of the one request of a run, as one step answers it. -/
def respond (w : ReqWord) : Option Word :=
  match step (pending [w]) with
  | .next s => s.observed.head?.map Exchange.response
  | .fault _ => none
  | .refused _ => none

/-- The refusal one step answers, if it does. -/
def refusal (w : ReqWord) : Option Refusal :=
  match step (pending [w]) with
  | .next _ => none
  | .fault _ => none
  | .refused r => some r

/-- Frame F1 of `95_test_vectors.md`. -/
def frame1 : Frame := #v[0x12, 0x34, 0x56, 0x78, 0x9A, 0xBC, 0xDE, 0xF0]

/-- Frame FF of `95_test_vectors.md`. -/
def frameFF : Frame := #v[0xFF, 0xFF, 0xFF, 0xFF, 0xFF, 0xFF, 0xFF, 0xFF]

/-! ### Well-formedness: an ill-formed term for each check -/

theorem test_wellFormed_refuses_rsv0 : ¬ ReqWord.WellFormed 0x08030C00000000000780000000000000#128 := by decide

theorem test_wellFormed_refuses_rsv1 : ¬ ReqWord.WellFormed 0x00030C01000000000780000000000000#128 := by decide

theorem test_wellFormed_refuses_op : ¬ ReqWord.WellFormed 0x03000000000000000000000000000000#128 := by decide

theorem test_wellFormed_refuses_request_op :
    ¬ Request.OpDefined { op := 3#2, absent := 0#1, start := 0#8, len := 0#8, value := 0#32, frame := 0#64 } := by decide

theorem test_wellFormed_accepts : ReqWord.WellFormed 0x00030C00000000000780000000000000#128 := by decide

/-! ### Decoding: a word of each operation, written out field by field from `30_encoding.md` R42 -/

/-- RSV0 00000, ABSENT 0, OP 00, START 3, LEN 12, RSV1 0, VALUE 0, FRAME 07 80 00 ... (§8, first row). -/
theorem test_decode_extract :
    decode (0b00000#5 ++ 0b0#1 ++ 0b00#2 ++ 0b00000011#8 ++ 0b00001100#8 ++ 0b00000000#8 ++ 0x00000000#32 ++
      0x0780000000000000#64) = .ok (.extractBeLsb (some #v[0x07, 0x80, 0, 0, 0, 0, 0, 0]) 3 12) := by decide

/-- OP 01, START 3, LEN 12, FRAME 0F FF 00 ... (§8, second row). -/
theorem test_decode_extract_signed :
    decode (0b00000#5 ++ 0b0#1 ++ 0b01#2 ++ 0b00000011#8 ++ 0b00001100#8 ++ 0b00000000#8 ++ 0x00000000#32 ++
      0x0FFF000000000000#64) = .ok (.extractBeLsbSigned (some #v[0x0F, 0xFF, 0, 0, 0, 0, 0, 0]) 3 12) := by decide

/-- OP 10, LEN 10, VALUE 512 (§8, third row). -/
theorem test_decode_sign_extend :
    decode (0b00000#5 ++ 0b0#1 ++ 0b10#2 ++ 0b00000000#8 ++ 0b00001010#8 ++ 0b00000000#8 ++ 0x00000200#32 ++
      0x0000000000000000#64) = .ok (.signExtend 512 10) := by decide

/-- ABSENT 1, OP 00, LEN 8 (§8, fourth row). -/
theorem test_decode_absent :
    decode (0b00000#5 ++ 0b1#1 ++ 0b00#2 ++ 0b00000000#8 ++ 0b00001000#8 ++ 0b00000000#8 ++ 0x00000000#32 ++
      0x0000000000000000#64) = .ok (.extractBeLsb none 0 8) := by decide

/-- The words of `30_encoding.md` §8 encode the calls beside them. -/
theorem test_encode :
    encode (.extractBeLsbSigned (some #v[0x0F, 0xFF, 0, 0, 0, 0, 0, 0]) 3 12) = 0x01030C00000000000FFF000000000000#128 ∧
    encode (.signExtend 512 10) = 0x02000A00000002000000000000000000#128 ∧
    encode (.extractBeLsb none 0 8) = 0x04000800000000000000000000000000#128 := by decide

theorem test_decodeTableWord :
    decodeTableWord 128 0x02000A00000002000000000000000000 = some (.signExtend 512 10) := by decide

/-! ### One step of each operation -/

/-- W6: 30, not 1920 (bits gathered most significant first). -/
theorem test_extract_gathers_lsb_first : respond 0x00030C00000000000780000000000000#128 = some 30#32 := by decide

/-- E30: an overrun answers the bits gathered, not 0. -/
theorem test_extract_overrun : respond 0x003F090000000000A55AC33C0FF0817E#128 = some 126#32 := by decide

/-- W13. -/
theorem test_extract_signed_negative : respond 0x01030C00000000000FFF000000000000#128 = some 0xFFFFFFFF#32 := by decide

/-- X17: 255, not -1 (sign taken from the bit reached). -/
theorem test_extract_signed_overrun : respond 0x013F090000000000FFFFFFFFFFFFFFFF#128 = some 0x000000FF#32 := by decide

/-- W8. -/
theorem test_sign_extend_negative : respond 0x02000A00000002000000000000000000#128 = some 0xFFFFFE00#32 := by decide

/-- S10: a bit above a clear sign bit stays. -/
theorem test_sign_extend_keeps_high_bits : respond 0x02000800000001000000000000000000#128 = some 256#32 := by decide

/-- N6 and N7: refused. -/
theorem test_reserved_refused :
    refusal 0x03000000000000000000000000000000#128 = some .reservedOp ∧
    refusal 0x08030C00000000000780000000000000#128 = some .reservedBit := by decide

/-- A word loaded at reset is the first request answered (W1). -/
theorem test_withFetchWord : step (State.reset.withFetchWord 128 0x00000200000000000100000000000000) =
    .next { requests := [], observed := [{ request := .extractBeLsb (some #v[1, 0, 0, 0, 0, 0, 0, 0]) 0 2, response := 1 }] } :=
  rfl

/-- `60_exceptions.md` R103: the absent frame with bad operands, and the overrun. -/
theorem test_anomalies :
    anomalies (.extractBeLsb none 64 0) = [.zeroLength, .startOutOfFrame, .frameAbsent] ∧
    anomalies (.extractBeLsb (some frame1) 63 9) = [.fieldOverrun] ∧
    anomalies (.signExtend 0x100 8) = [.valueWiderThanBitLength] ∧
    anomalies (.signExtend 0x100 0) = [] := by decide

/-! ### The written form (`30_encoding.md` R54, R55; program P2) -/

theorem test_text_line :
    Text.readLine "extract_be_lsb([0x07,0x80,0,0,0,0,0,0], 3, 12) -> 30".toList =
      some { request := .extractBeLsb (some #v[0x07, 0x80, 0, 0, 0, 0, 0, 0]) 3 12, states := some 30 } := by
  decide +kernel

theorem test_text_program :
    Text.readProgram "sign_extend(512, 10) -> -512\n\nextract_signal(null, 1, 10, true)" =
      some [{ request := .signExtend 512 10, states := some (-512) },
            { request := .extractBeLsbSigned none 1 10, states := none }] := by
  decide +kernel

/-- What the line of W8 states holds of its exchange. -/
theorem test_text_stated :
    Text.Line.holds { request := .signExtend 512 10, states := some (-512) }
      { request := .signExtend 512 10, response := 0xFFFFFE00 } = true := by decide

/-! ### Witnesses: each statement's hypotheses can be met, clause by clause, at the edges of their ranges -/

theorem witness_EncodeOfDecodeClearsIgnoredFields :
    decode 0x00030C00DEADBEEF0780000000000000#128 = .ok (.extractBeLsb (some #v[0x07, 0x80, 0, 0, 0, 0, 0, 0]) 3 12) := by
  decide

theorem witness_OperationMapSelectsTheDecodedOperation :
    decode 0x02000A00000002000000000000000000#128 = .ok (.signExtend 512 10) ∧
    decode 0x03000000000000000000000000000000#128 = .error .op := by decide

theorem witness_ReservedRequestIsRefused :
    (pending [0x03000000000000000000000000000000#128]).requests = 0x03000000000000000000000000000000#128 :: [] ∧
    (0x03000000000000000000000000000000#128).extractLsb' 120 2 = 0b11#2 ∧
    (0x80000000000000000000000000000000#128).extractLsb' 123 5 ≠ 0#5 ∧
    (0x00030C01000000000780000000000000#128).extractLsb' 96 8 ≠ 0#8 := by decide

theorem witness_RefusalNamesTheReservedField :
    (pending [0x80000000000000000000000000000000#128]).requests = 0x80000000000000000000000000000000#128 :: [] ∧
    (0x80000000000000000000000000000000#128).extractLsb' 123 5 ≠ 0#5 ∧
    (pending [0x03000000000000000000000000000000#128]).requests = 0x03000000000000000000000000000000#128 :: [] ∧
    (0x03000000000000000000000000000000#128).extractLsb' 120 2 = 0b11#2 ∧
    (0x03000000000000000000000000000000#128).extractLsb' 123 5 = 0#5 ∧
    (0x03000000000000000000000000000000#128).extractLsb' 96 8 = 0#8 := by decide

theorem witness_FrameBytesSitMostSignificantFirst : (7 : Nat) < 8 := by decide

theorem witness_OperandsAreTheFieldsUnchanged :
    decode 0x04070800FFFFFFFFFFFFFFFFFFFFFFFF#128 = .ok (.extractBeLsb none 7 8) ∧
    decode 0x01030C00000000000FFF000000000000#128 = .ok (.extractBeLsbSigned (some #v[0x0F, 0xFF, 0, 0, 0, 0, 0, 0]) 3 12) ∧
    decode 0x02000A00000002000000000000000000#128 = .ok (.signExtend 512 10) ∧
    (63#8).toNat ≤ 63 ∧ 64 ≤ (64#8).toNat := by decide

theorem witness_IgnoredFieldsDoNotMatter :
    decode 0x00030C00000000000780000000000000#128 = .ok (.extractBeLsb (some #v[0x07, 0x80, 0, 0, 0, 0, 0, 0]) 3 12) ∧
    0x00030C00000000000780000000000000#128 &&& usedBits (.extractBeLsb (some #v[0x07, 0x80, 0, 0, 0, 0, 0, 0]) 3 12) =
      0x00030C00DEADBEEF0780000000000000#128 &&& usedBits (.extractBeLsb (some #v[0x07, 0x80, 0, 0, 0, 0, 0, 0]) 3 12) ∧
    decode 0x02000A00000002000000000000000000#128 = .ok (.signExtend 512 10) ∧
    0x02000A00000002000000000000000000#128 &&& usedBits (.signExtend 512 10) =
      0x063F0A0000000200123456789ABCDEF0#128 &&& usedBits (.signExtend 512 10) := by decide

theorem witness_FrameBitIsOneBitOfTheByte : (7 : Nat) ≤ 7 ∧ (63 : Nat) ≤ 63 := by decide

theorem witness_AdvanceIsTheForwardStep : (1 : Nat) > 0 := by decide

theorem witness_AdvanceInPositionNumbers :
    ({ byte := 0, bit := 7 } : Place).bit ≤ 7 ∧ ({ byte := 0, bit := 7 } : Place).position % 8 ≠ 0 ∧
    ({ byte := 7, bit := 0 } : Place).bit ≤ 7 ∧ ¬ ({ byte := 7, bit := 0 } : Place).position % 8 ≠ 0 := by decide

theorem witness_TraversalClosedForm : (63#8).toNat ≤ 63 ∧ 7 ≤ (63#8).toNat % 8 ∧ ¬ 8 ≤ (63#8).toNat % 8 := by decide

theorem witness_TraversalIsTheStreamOrder :
    ({ byte := 7, bit := 7 } : Place).byte ≤ 7 ∧ ({ byte := 7, bit := 7 } : Place).bit ≤ 7 := by decide

theorem witness_AvailCountsThePlacesInTheFrame : (63#8).toNat ≤ 63 ∧ 7 < avail 63#8 ∧ ¬ 8 < avail 63#8 := by decide

theorem witness_OverrunNeedsAStartInTheLaterBytes :
    overruns 32#8 26#8 = true ∧ overruns 38#8 32#8 = true ∧ overruns 63#8 9#8 = true := by decide

theorem witness_TraversalIndicesStayInRange : (56#8).toNat ≤ 63 ∧ 1 ≤ avail 56#8 ∧ (0#8).toNat ≤ 63 ∧ 57 ≤ avail 0#8 := by
  decide

theorem witness_ExtractAnswersTheVisitedBits :
    1 ≤ (1#8).toNat ∧ (1#8).toNat ≤ 32 ∧ (63#8).toNat ≤ 63 ∧ 1 ≤ (32#8).toNat ∧ (32#8).toNat ≤ 32 ∧ (31 : Nat) < 32 := by decide

theorem witness_ExtractReadsOnlyTheVisitedPlaces :
    ∀ i, i < min (8#8).toNat (avail 7#8) →
      placeBit #v[0x12, 0, 0, 0, 0, 0, 0, 0] (trav 7#8 i) = placeBit frame1 (trav 7#8 i) := by decide

theorem witness_DegenerateExtractAnswersZero :
    (0#8).toNat = 0 ∧ 32 < (33#8).toNat ∧ 64 ≤ (64#8).toNat ∧ (none : Option Frame) = none := by decide

theorem witness_ExtractAnswersTheStreamSum : 1 ≤ (32#8).toNat ∧ (32#8).toNat ≤ 32 ∧ (63#8).toNat ≤ 63 := by decide

theorem witness_LongerFieldAddsOnlyHigherBits :
    (63#8).toNat ≤ 63 ∧ 1 ≤ (1#8).toNat ∧ (1#8).toNat ≤ (32#8).toNat ∧ (32#8).toNat ≤ 32 := by decide

theorem witness_OverrunAnswersTheGatheredBits :
    (63#8).toNat ≤ 63 ∧ avail 63#8 < (9#8).toNat ∧ (9#8).toNat ≤ 32 ∧ (7 : Nat) < avail 63#8 := by decide

theorem witness_SingleBitFidelity : (63 : Nat) ≤ 63 ∧ (63#8).toNat ≤ 63 ∧ (63#8).toNat / 8 < 8 := by decide

theorem witness_AllZeroAndAllOnesFrames :
    (39#8).toNat ≤ 63 ∧ 1 ≤ (32#8).toNat ∧ (32#8).toNat ≤ 32 ∧ (32#8).toNat ≤ avail 39#8 := by decide

theorem witness_AllOnesFrameWithOverrun : (38#8).toNat ≤ 63 ∧ avail 38#8 < (32#8).toNat ∧ (32#8).toNat ≤ 32 := by decide

theorem witness_ByteReadFromBitSevenIsReversed : (7 : Nat) < 8 := by decide

theorem witness_SignedReadingIsReversible :
    (0x7FFFFFFF#32).toNat < 2 ^ 31 ∧ 2 ^ 31 ≤ (0x80000000#32).toNat ∧
    -(2 ^ 31) ≤ (-2147483648 : Int) ∧ (-2147483648 : Int) < 2 ^ 31 := by decide

theorem witness_SignExtendFillsAboveASetSignBit :
    1 ≤ (1#8).toNat ∧ (1#8).toNat ≤ 31 ∧ 1 ≤ (31#8).toNat ∧ (31#8).toNat ≤ 31 ∧ (31 : Nat) < 32 := by decide

theorem witness_SignExtendLeavesNoOpLengthsUnchanged : (0#8).toNat = 0 ∧ 32 ≤ (32#8).toNat ∧ 32 ≤ (255#8).toNat := by decide

theorem witness_SignExtendIsTheTwosComplementMapping :
    1 ≤ (31#8).toNat ∧ (31#8).toNat ≤ 31 ∧ (0x7FFFFFFF#32).toNat < 2 ^ (31#8).toNat ∧
    (0x3FFFFFFF#32).toNat < 2 ^ ((31#8).toNat - 1) ∧ ¬ (0x40000000#32).toNat < 2 ^ ((31#8).toNat - 1) := by decide

theorem witness_DegenerateSignedExtractAnswersZero :
    (0#8).toNat = 0 ∧ 32 < (33#8).toNat ∧ 64 ≤ (64#8).toNat ∧ (none : Option Frame) = none := by decide

theorem witness_SignedExtractReadsTheFieldInTwosComplement : 1 ≤ (1#8).toNat ∧ 1 ≤ (31#8).toNat ∧ (31#8).toNat ≤ 31 := by
  decide

theorem witness_SignedExtractOfFullAndOneBitFields : (63#8).toNat ≤ 63 := by decide

theorem witness_SignedOverrunIsThePartialValue :
    (63#8).toNat ≤ 63 ∧ avail 63#8 < (9#8).toNat ∧ (9#8).toNat ≤ 32 := by decide

theorem witness_AnomaliesOfAnExtractionAnswerZero :
    (∃ x ∈ extractAnomalies none 64#8 0#8, x.class = .a ∨ x.class = .likeA) ∧
    .fieldOverrun ∈ extractAnomalies (some frame1) 63#8 9#8 := by decide

theorem witness_NonReservedRequestHasExactlyOneOutcome :
    (pending [0x04402100000000000000000000000000#128]).requests = 0x04402100000000000000000000000000#128 :: [] ∧
    ReqWord.WellFormed 0x04402100000000000000000000000000#128 := by decide

theorem witness_StepRunsTheDecodedRequest :
    (pending [0x02000A00000002000000000000000000#128]).requests = 0x02000A00000002000000000000000000#128 :: [] ∧
    decode 0x02000A00000002000000000000000000#128 = .ok (.signExtend 512 10) := by decide

theorem witness_StepWithoutARequestChangesNothing : State.reset.requests = [] := rfl

theorem witness_LoadedWordRunsNext :
    decodeTableWord 128 0x01030C00000000000FFF000000000000 =
      some (.extractBeLsbSigned (some #v[0x0F, 0xFF, 0, 0, 0, 0, 0, 0]) 3 12) := by decide

theorem witness_ResetChangesNoResponse :
    exec (.signExtend 512 10) State.reset = .next (State.reset.afterAnswer (.signExtend 512 10) 0xFFFFFE00#32) ∧
    exec (.signExtend 512 10) (pending [0#128]) =
      .next ((pending [0#128]).afterAnswer (.signExtend 512 10) 0xFFFFFE00#32) := ⟨rfl, rfl⟩

/-- A run that has answered W13 and is about to answer W8. -/
def answeredW13 : State :=
  ⟨[0x02000A00000002000000000000000000#128],
    [rightExchange (.extractBeLsbSigned (some #v[0x0F, 0xFF, 0, 0, 0, 0, 0, 0]) 3 12)]⟩

theorem witness_StepKeepsObservedRight :
    answeredW13.ObservedRight ∧
    step answeredW13 =
      .next (State.afterAnswer { answeredW13 with requests := [] } (.signExtend 512 10) 0xFFFFFE00#32) := by
  refine ⟨?_, rfl⟩
  intro e he
  rw [answeredW13, List.mem_singleton] at he
  subst he
  rfl

theorem witness_StepsNeverStopWhileTheHostKeepsItsDuty :
    State.HostKeepsDuty (pending [0x00030C00000000000780000000000000#128]) := by
  intro w hw
  rw [pending, List.mem_singleton] at hw
  subst hw
  decide

theorem witness_RunAnswersEveryRequestInOrder :
    (pending [0x02000A00000002000000000000000000#128, 0x04000800000000000000000000000000#128]).requests =
      [0x02000A00000002000000000000000000#128] ++ [0x04000800000000000000000000000000#128] ∧
    [0x02000A00000002000000000000000000#128].map decode = [Instr.signExtend 512 10].map .ok := by decide

theorem witness_IssuedProgramRunsTopToBottom : (pending []).requests = [] := rfl

theorem witness_InstancesShareNothing :
    ([State.reset, pending [0x02000A00000002000000000000000000#128]] : List State)[1]? =
      some (pending [0x02000A00000002000000000000000000#128]) ∧
    step (pending [0x02000A00000002000000000000000000#128]) =
      .next { requests := [], observed := [{ request := .signExtend 512 10, response := 0xFFFFFE00 }] } ∧
    (0 : Nat) ≠ 1 := ⟨rfl, rfl, by decide⟩

end Sys2Proof.Machine.Tests
end

section
/-! The obligations of `00_scope.md`: the signed reading, the idle step, the run that answers its requests in order. The
last rests on the closed form of every response, which is built up here from the frame's bits. -/

open Sys2Proof Sys2Proof.Machine

namespace Sys2Proof.Machine

/-! ### The frame as the number `W` (`20_memory.md` R25) -/

/-- The byte at index `b` stands at bits `63 - 8*b` to `56 - 8*b` of the `FRAME` field (`30_encoding.md` R44). -/
theorem extractLsb'_packFrame (d : Frame) (b : Fin 8) : (packFrame d).extractLsb' (56 - 8 * b.val) 8 = d[b] := by
  fin_cases b <;>
    simp [packFrame, extractLsb'_or', extractLsb'_fieldAt_other, extractLsb'_fieldAt_self]

/-- The byte at index `b` has its bits at `56 - 8*b` upward in the `FRAME` field (`30_encoding.md` R44). -/
theorem packFrame_getLsbD (d : Frame) (b : Fin 8) {k : Nat} (hk : k < 8) :
    (packFrame d).getLsbD (56 - 8 * b.val + k) = d[b].getLsbD k := by
  have hbyte := congrArg (fun x => BitVec.getLsbD x k) (extractLsb'_packFrame d b)
  simpa [hk] using hbyte

theorem streamIndex_advance {p : Place} (h : p.bit ≤ 7) : (advance p).streamIndex = p.streamIndex + 1 := by
  rcases advance_cases p with ⟨hpos, hbyte, hbit⟩ | ⟨hzero, hbyte, hbit⟩ <;>
    simp only [Place.streamIndex, hbyte, hbit] <;> omega

/-- The traversal visits the frame's bits in the order of their stream indices. -/
theorem streamIndex_trav (start : Byte) (i : Nat) :
    (trav start i).streamIndex = (startPlace start).streamIndex + i := by
  induction i with
  | zero => rfl
  | succ i ih => rw [trav_succ, streamIndex_advance (trav_bit_le start i), ih, Nat.add_assoc]

/-- The bit with stream index `q` is `W[63 - q]`, and past the frame there is none. -/
theorem placeBit_eq_packFrame_getLsbD (d : Frame) {p : Place} (hbit : p.bit ≤ 7) :
    placeBit d p = (decide (p.streamIndex ≤ 63) && (packFrame d).getLsbD (63 - p.streamIndex)) := by
  by_cases hbyte : p.byte < 8
  · have hin : p.streamIndex ≤ 63 := by unfold Place.streamIndex; omega
    have hpos : 63 - p.streamIndex = 56 - 8 * p.byte + p.bit := by unfold Place.streamIndex; omega
    have hpack := packFrame_getLsbD d ⟨p.byte, hbyte⟩ (k := p.bit) (by omega)
    simp only [hin, hpos, decide_true, Bool.true_and, placeBit_of_lt d hbyte]
    exact hpack.symm
  · have hout : ¬ p.streamIndex ≤ 63 := by unfold Place.streamIndex; omega
    simp [hout, placeBit_of_ge d (Nat.not_lt.mp hbyte)]

/-! ### The unsigned field in closed form (`40_extract.md` R66) -/

/-- A term of the stream sum weighs the bit visited in its own turn. -/
theorem streamTerm_eq (d : Frame) (start : Byte) (i : Nat) :
    streamTerm d start i = if placeBit d (trav start i) then 2 ^ i else 0 := by
  rw [placeBit_eq_packFrame_getLsbD d (trav_bit_le start i), streamIndex_trav]
  simp [streamTerm]

theorem streamSum_zero (d : Frame) (start : Byte) : streamSum d start 0 = 0 := rfl

theorem streamSum_succ (d : Frame) (start : Byte) (n : Nat) :
    streamSum d start (n + 1) = streamSum d start n + streamTerm d start n := by
  simp [streamSum, List.range_succ]

theorem streamSum_lt (d : Frame) (start : Byte) (n : Nat) : streamSum d start n < 2 ^ n := by
  induction n with
  | zero => simp [streamSum_zero]
  | succ n ih =>
    have hterm : streamTerm d start n ≤ 2 ^ n := by rw [streamTerm_eq]; split <;> omega
    rw [streamSum_succ, Nat.pow_succ]
    omega

/-- One term more sets the bit of its own turn and no other. -/
theorem streamSum_succ_testBit (d : Frame) (start : Byte) (n j : Nat) :
    (streamSum d start (n + 1)).testBit j =
      ((streamSum d start n).testBit j || (decide (n = j) && placeBit d (trav start n))) := by
  rw [streamSum_succ, streamTerm_eq]
  cases placeBit d (trav start n) with
  | false => simp
  | true =>
    have hor := Nat.two_pow_add_eq_or_of_lt (streamSum_lt d start n) 1
    rw [Nat.mul_one] at hor
    simp [Nat.add_comm, hor, Nat.testBit_two_pow, Bool.or_comm]

/-- Bit `j` of the stream sum is the bit visited in turn `j`. -/
theorem streamSum_testBit (d : Frame) (start : Byte) (n j : Nat) :
    (streamSum d start n).testBit j = (decide (j < n) && placeBit d (trav start j)) := by
  induction n with
  | zero => simp [streamSum_zero]
  | succ n ih =>
    rw [streamSum_succ_testBit, ih]
    by_cases hnj : n = j
    · simp [hnj]
    · have hlast : j < n + 1 ↔ j < n := by omega
      simp [hnj, hlast]

/-- The loop of `40_extract.md` R60 and the sum of R66 answer the same word, degenerate and absent forms included. -/
theorem extractBeLsb_eq_closedField (data : Option Frame) (start length : Byte) :
    extractBeLsb data start length = BitVec.ofNat 32 (closedField data start length) := by
  cases data with
  | none => rfl
  | some d =>
    cases hdeg : degenerate start length with
    | true => simp [closedField, hdeg]
    | false =>
      apply BitVec.eq_of_getLsbD_eq
      intro j hj
      rw [extractBeLsb_getLsbD d hdeg hj, BitVec.getLsbD_ofNat]
      simp [closedField, hdeg, hj, streamSum_testBit]

/-! ### Sign extension in closed form (`41_sign_extend.md` R81 to R83) -/

/-- The fill mask is the pattern of `-2^n`. -/
theorem fillMask_eq_neg (n : Byte) : fillMask n = -BitVec.ofNat 32 (2 ^ n.toNat) := by
  have hpow : 1#32 <<< n.toNat = BitVec.ofNat 32 (2 ^ n.toNat) := by
    apply BitVec.eq_of_toNat_eq
    simp [Nat.shiftLeft_eq]
  rw [fillMask, hpow, BitVec.not_sub_one_eq_not_add_one, ← BitVec.neg_eq_not_add]

theorem lowBits_getLsbD (v : Word) (n : Nat) {i : Nat} (hi : i < 32) :
    (BitVec.ofNat 32 (v.toNat % 2 ^ n)).getLsbD i = (decide (i < n) && v.getLsbD i) := by
  rw [BitVec.getLsbD_ofNat, Nat.testBit_mod_two_pow]
  simp [hi, BitVec.getLsbD]

/-- A filled word is its low `n` bits and the fill mask, which share no bit, so that the union is a sum. -/
theorem or_fillMask_eq_add (v : Word) (n : Byte) (hn : n.toNat ≤ 31) :
    v ||| fillMask n = BitVec.ofNat 32 (v.toNat % 2 ^ n.toNat) + fillMask n := by
  have hdisjoint : BitVec.ofNat 32 (v.toNat % 2 ^ n.toNat) &&& fillMask n = 0#32 := by
    apply BitVec.eq_of_getLsbD_eq
    intro i hi
    rw [BitVec.getLsbD_and, lowBits_getLsbD v n.toNat hi, fillMask_getLsbD n hn]
    by_cases hin : i < n.toNat <;> simp [hin]
  rw [BitVec.add_eq_or_of_and_eq_zero _ _ hdisjoint]
  apply BitVec.eq_of_getLsbD_eq
  intro i hi
  rw [BitVec.getLsbD_or, BitVec.getLsbD_or, lowBits_getLsbD v n.toNat hi, fillMask_getLsbD n hn]
  by_cases hin : i < n.toNat
  · simp [hin]
  · simp [hi, hin, Nat.not_lt.mp hin]

/-- Filling bits 31 to `n` with ones takes `2^n` from the low `n` bits. -/
theorem or_fillMask_eq_toUnsigned32 (v : Word) (n : Byte) (hn : n.toNat ≤ 31) :
    v ||| fillMask n = toUnsigned32 ((v.toNat % 2 ^ n.toNat : Nat) - (2 ^ n.toNat : Nat)) := by
  rw [or_fillMask_eq_add v n hn, fillMask_eq_neg, toUnsigned32, Int.sub_eq_add_neg, BitVec.ofInt_add,
    BitVec.ofInt_neg, BitVec.ofInt_natCast, BitVec.ofInt_natCast]

/-- The formula of `41_sign_extend.md` R80 and its closed form have the same response, for every value and length. -/
theorem closedSigned_eq (v : Word) (n : Byte) :
    toUnsigned32 (closedSigned v n.toNat) = toUnsigned32 (signExtend v n) := by
  have hsign : v.toNat / 2 ^ (n.toNat - 1) % 2 = 1 ↔ v.getLsbD (n.toNat - 1) = true := by
    rw [BitVec.getLsbD, Nat.testBit_eq_decide_div_mod_eq, decide_eq_true_iff]
  rw [toUnsigned32_signExtend]
  unfold closedSigned
  simp only [hsign]
  split
  · simp
  · split
    · rw [or_fillMask_eq_toUnsigned32 v n (by omega)]
    · simp

/-! ### Every response in closed form -/

theorem response_eq_closedResponse (i : Instr) : response i = closedResponse i := by
  cases i with
  | extractBeLsb data start length => exact extractBeLsb_eq_closedField data start length
  | extractBeLsbSigned data start length =>
    simp only [response, closedResponse, closedSigned_eq, extractBeLsbSigned, extractBeLsb_eq_closedField]
  | signExtend value n => exact (closedSigned_eq value n).symm

/-- Every instruction answers with the exchange the rules demand and changes nothing else. -/
theorem exec_eq_rightExchange (i : Instr) (s : State) :
    exec i s = .next { s with observed := s.observed ++ [rightExchange i] } := by
  rw [exec_eq, response_eq_closedResponse]
  rfl

/-! ### Runs -/

/-- A step on a request that decodes takes it and adds its right exchange. -/
theorem step_of_decode {s : State} {w : ReqWord} {rest : List ReqWord} {i : Instr} (h : s.requests = w :: rest)
    (hd : decode w = .ok i) :
    step s = .next { requests := rest, observed := s.observed ++ [rightExchange i] } := by
  rw [step_of_ok h hd, exec_eq_rightExchange]

/-- A run goes on from the state its first step leads to. -/
theorem run_succ_of_next {s t : State} (h : step s = .next t) (k : Nat) :
    Host.Core.run core (k + 1) s = Host.Core.run core k t := by
  have hcore : core.step s = .next t := h
  simp only [Host.Core.run, hcore]

end Sys2Proof.Machine

/-- Settles O46: the step finds no request to take. -/
theorem stepWithoutARequestChangesNothing : Obligations.StepWithoutARequestChangesNothing :=
  fun _ h => step_of_nil h

/-- Settles O33: the signed reading is the two's-complement value of the word, and `toUnsigned32` its residue. -/
theorem signedReadingIsReversible : Obligations.SignedReadingIsReversible := by
  refine ⟨fun u => ⟨fun h => ?_, fun h => ?_, toUnsigned32_toSigned32 u⟩, fun z => ?_, fun z hlo hhi => ?_⟩
  · exact if_pos h
  · exact if_neg (Nat.not_lt.mpr h)
  · rw [toUnsigned32, BitVec.toNat_ofInt]
    exact Int.toNat_of_nonneg (Int.emod_nonneg z (by decide))
  · rw [toSigned32_eq_toInt, toUnsigned32]
    exact BitVec.toInt_ofInt_eq_self (by decide) hlo hhi

/-- Settles O54, by induction on the requests that decode: each step answers the first of them. -/
theorem runAnswersEveryRequestInOrder : Obligations.RunAnswersEveryRequestInOrder := by
  intro s ws
  induction ws generalizing s with
  | nil =>
    intro rest is hreq hdec
    cases is with
    | nil => cases s; cases hreq; simp [Host.Core.run]
    | cons i is => cases hdec
  | cons w ws ih =>
    intro rest is hreq hdec
    cases is with
    | nil => cases hdec
    | cons i is =>
      obtain ⟨hw, hws⟩ := List.cons.inj hdec
      have hstep := step_of_decode hreq hw
      rw [List.length_cons, run_succ_of_next hstep, ih _ rest is rfl hws]
      simp
end


section
/-! The obligations of `10_state.md`: reset and every step keep the observed responses right. -/

open Sys2Proof Sys2Proof.Machine

namespace Sys2Proof.Machine

/-- One exchange more is right exactly when its response is the one in closed form. -/
theorem observedRight_afterAnswer_iff (s : State) (i : Instr) (v : Word) :
    (s.afterAnswer i v).ObservedRight ↔ s.ObservedRight ∧ v = closedResponse i := by
  rw [State.ObservedRight, State.afterAnswer_observed, List.forall_mem_append, List.forall_mem_singleton]
  simp [State.ObservedRight, rightExchange]

end Sys2Proof.Machine

/-- Settles O51: an idle step changes nothing, and an answering step adds one exchange, whose response has the closed
form. -/
theorem stepKeepsObservedRight : Obligations.StepKeepsObservedRight := by
  intro s t hright hstep
  rcases step_next_cases hstep with ⟨-, rfl⟩ | ⟨w, rest, i, -, -, rfl⟩
  · exact hright
  · exact (observedRight_afterAnswer_iff _ i _).mpr ⟨hright, response_eq_closedResponse i⟩

/-- Settles O52: after reset no exchange has been observed and no request is pending (log 4), so neither invariant has
anything to meet. -/
theorem resetMeetsTheInvariants : Obligations.ResetMeetsTheInvariants := by
  constructor
  · simp [State.ObservedRight]
  · simp [State.HostKeepsDuty]
end

section
/-! The obligations of `20_memory.md`: the bits of the frame, the step forward and its closed forms, the places an extraction
reads, the response as a function of the request. The closed forms all rest on the stream index (R25), which grows by one a
step and determines the place. -/

open Sys2Proof Sys2Proof.Machine

namespace Sys2Proof.Machine

/-! ### A place and its stream index (`20_memory.md` R25) -/

/-- A place is determined by its stream index. -/
theorem Place.eq_of_streamIndex {p : Place} (h : p.bit ≤ 7) :
    p = { byte := p.streamIndex / 8, bit := 7 - p.streamIndex % 8 } := by
  have hbyte : p.streamIndex / 8 = p.byte := by unfold Place.streamIndex; omega
  have hbit : 7 - p.streamIndex % 8 = p.bit := by unfold Place.streamIndex; omega
  rw [hbyte, hbit]

/-- The places of the frame are those with stream index 0 to 63. -/
theorem Place.inFrame_iff_streamIndex_le {p : Place} : p.inFrame = true ↔ p.streamIndex ≤ 63 := by
  simp only [Place.inFrame, Place.streamIndex, decide_eq_true_iff]
  omega

theorem startPlace_streamIndex (s : Byte) : (startPlace s).streamIndex = 8 * (s.toNat / 8) + 7 - s.toNat % 8 := by
  simp only [Place.streamIndex, startPlace_byte, startPlace_bit]
  omega

/-- The places left from a start in the frame are those with the stream indices from the start's to 63 (`20_memory.md` R26). -/
theorem startPlace_streamIndex_add_avail {s : Byte} (h : s.toNat ≤ 63) : (startPlace s).streamIndex + avail s = 64 := by
  rw [startPlace_streamIndex, avail]
  omega

/-! ### The places an extraction reads (`20_memory.md` R26, R29) -/

theorem trav_inFrame_iff {s : Byte} (h : s.toNat ≤ 63) (i : Nat) : (trav s i).inFrame = true ↔ i < avail s := by
  have hstart := startPlace_streamIndex_add_avail h
  rw [Place.inFrame_iff_streamIndex_le, streamIndex_trav]
  omega

/-- From turn `Avail(s)` on the traversal contributes 0. -/
theorem placeBit_trav_of_avail_le (d : Frame) {s : Byte} (h : s.toNat ≤ 63) {i : Nat} (hi : avail s ≤ i) :
    placeBit d (trav s i) = false := by
  have hout : ¬ (trav s i).inFrame = true := by rw [trav_inFrame_iff h]; omega
  have hbyte : 7 < (trav s i).byte := by simpa [Place.inFrame] using hout
  exact placeBit_of_ge d hbyte

/-- The descriptors that start a traversal (`40_extract.md` R61). -/
theorem degenerate_eq_false_iff (s l : Byte) :
    degenerate s l = false ↔ 1 ≤ l.toNat ∧ l.toNat ≤ 32 ∧ s.toNat ≤ 63 := by
  simp only [degenerate, Config.maxLength, Config.frameBits, Bool.or_eq_false_iff, beq_eq_false_iff_ne,
    decide_eq_false_iff_not]
  omega

/-- Frames that agree where a field reads them, before its length and the frame end, give the same field. -/
theorem extractBeLsb_congr {d d' : Frame} {s l : Byte}
    (h : ∀ i, i < min l.toNat (avail s) → placeBit d (trav s i) = placeBit d' (trav s i)) :
    extractBeLsb (some d) s l = extractBeLsb (some d') s l := by
  cases hdeg : degenerate s l with
  | true => rw [extractBeLsb_of_degenerate _ hdeg, extractBeLsb_of_degenerate _ hdeg]
  | false =>
    obtain ⟨-, -, hs⟩ := (degenerate_eq_false_iff s l).mp hdeg
    apply BitVec.eq_of_getLsbD_eq
    intro j hj
    rw [extractBeLsb_getLsbD d hdeg hj, extractBeLsb_getLsbD d' hdeg hj]
    by_cases hlen : j < l.toNat
    · by_cases hav : j < avail s
      · rw [h j (lt_min hlen hav)]
      · rw [placeBit_trav_of_avail_le d hs (Nat.not_lt.mp hav), placeBit_trav_of_avail_le d' hs (Nat.not_lt.mp hav)]
    · simp [hlen]

/-! ### One bit of a byte, and the frame with one bit set (`20_memory.md` R22, `40_extract.md` R67) -/

theorem frameBit_toNat (d : Frame) (b : Fin 8) (k : Nat) : (frameBit d b k).toNat = (d[b].getLsbD k).toNat := by
  rw [frameBit_eq, Fin.getElem_fin]
  cases d[b.val].getLsbD k <;> rfl

/-- In the frame with only position `p` set, the bit at position `8*b + k` is set exactly when `p` is that position. -/
theorem onlyPosition_getLsbD (p : Nat) (b : Fin 8) {k : Nat} (hk : k ≤ 7) :
    (onlyPosition p)[b.val].getLsbD k = decide (8 * b.val + k = p) := by
  have hplace : 8 * b.val + k = p ↔ b.val = p / 8 ∧ p % 8 = k := by omega
  have hone : (1#8 <<< (p % 8)).getLsbD k = decide (p % 8 = k) := by
    have hlt : p % 8 < 8 := Nat.mod_lt p (by decide)
    exact (BitVec.getLsbD_twoPow (p % 8) k).trans (by simp [hlt])
  rw [decide_eq_decide.mpr hplace, Bool.decide_and, ← hone]
  by_cases hb : b.val = p / 8 <;> simp [onlyPosition, hb]

end Sys2Proof.Machine

/-- Settles O13: `FrameBit` is the byte's bit of weight `2^k`, and the frame with one position set has that bit at its own
place alone. -/
theorem frameBitIsOneBitOfTheByte : Obligations.FrameBitIsOneBitOfTheByte := by
  refine ⟨fun d b k _ => ?_, fun p b k _ hk => ?_⟩
  · exact (frameBit_toNat d b k).trans (Nat.toNat_testBit d[b].toNat k)
  · simp only [frameBit_eq, onlyPosition_getLsbD p b hk, decide_eq_true_iff]

/-- Settles O15: inside a byte the position falls by one; from bit 0 to bit 7 of the next byte it rises by 15. -/
theorem advanceInPositionNumbers : Obligations.AdvanceInPositionNumbers := by
  intro p hbit
  have hmod : p.position % 8 = p.bit := by unfold Place.position; omega
  rw [hmod]
  rcases advance_cases p with ⟨hpos, hbyte', hbit'⟩ | ⟨hzero, hbyte', hbit'⟩
  · rw [if_pos (by omega), Place.position, Place.position, hbyte', hbit']
    omega
  · rw [if_neg (by omega), Place.position, Place.position, hbyte', hbit']
    omega

/-- Settles O16: the i-th place is the one with stream index `q(s) + i`, which lies in the start byte for `i ≤ s mod 8` and
in a later one beyond. -/
theorem traversalClosedForm : Obligations.TraversalClosedForm := by
  intro s i _
  rw [Place.eq_of_streamIndex (trav_bit_le s i), streamIndex_trav, startPlace_streamIndex]
  split <;> rw [Place.mk.injEq] <;> omega

/-- Settles O17: the stream index grows by one a step, and stands at `W[63 - q]`. -/
theorem traversalIsTheStreamOrder : Obligations.TraversalIsTheStreamOrder := by
  refine ⟨fun s i => ?_, fun d p hbyte hbit => ?_⟩
  · rw [streamIndex_trav, startPlace_streamIndex]
  · have hin : p.streamIndex ≤ 63 := Place.inFrame_iff_streamIndex_le.mp (decide_eq_true hbyte)
    rw [placeBit_eq_packFrame_getLsbD d hbit, decide_eq_true hin, Bool.true_and]

/-- Settles O18: the frame ends at stream index 63. -/
theorem availCountsThePlacesInTheFrame : Obligations.AvailCountsThePlacesInTheFrame :=
  fun _ i h => trav_inFrame_iff h i

/-- Settles O19: from a start in bytes 0 to 3, and from 39, at least 32 places are left, and no field is longer. -/
theorem overrunNeedsAStartInTheLaterBytes : Obligations.OverrunNeedsAStartInTheLaterBytes := by
  intro s l hover
  obtain ⟨hdeg, hlong⟩ : degenerate s l = false ∧ avail s < l.toNat := by simpa [overruns] using hover
  obtain ⟨-, hlen, hstart⟩ := (degenerate_eq_false_iff s l).mp hdeg
  rw [avail] at hlong
  omega

/-- Settles O22: two frames that agree at the places read give the same field, and the field is the response. -/
theorem extractReadsOnlyTheVisitedPlaces : Obligations.ExtractReadsOnlyTheVisitedPlaces := by
  intro s d d' start length hagree
  refine ⟨extractBeLsb (some d) start length, exec_eq _ s, ?_⟩
  rw [extractBeLsb_congr hagree]
  exact exec_eq _ s

/-- Settles O14: the two branches of `Advance`, the second of them at the frame's last place. -/
theorem advanceIsTheForwardStep : Obligations.AdvanceIsTheForwardStep :=
  ⟨fun _ _ hk => advance_of_pos hk, fun _ => advance_of_zero rfl, rfl⟩

/-- Settles O48: the response of an instruction names no state. -/
theorem responseDependsOnTheRequestAlone : Obligations.ResponseDependsOnTheRequestAlone :=
  fun i => ⟨response i, exec_eq i⟩
end

section
/-! The obligations of `30_encoding.md`: the request word, the operation map, the written form of a request. All of the
request word rests on one fact: a word decodes to an instruction exactly when it agrees with the instruction's encoding on
the bits the instruction uses. -/

open Sys2Proof Sys2Proof.Machine

namespace Sys2Proof

/-! ### Packing and unpacking a frame (R44) -/

/-- Byte `b` of the frame is bits `63 - 8*b` to `56 - 8*b` of `FRAME`. -/
theorem unpackFrame_getElem (f : FrameWord) (b : Fin 8) : (unpackFrame f)[b] = f.extractLsb' (56 - 8 * b.val) 8 := by
  fin_cases b <;> rfl

@[simp] theorem unpackFrame_packFrame (d : Frame) : unpackFrame (packFrame d) = d := by
  apply Vector.ext
  intro b hb
  exact (unpackFrame_getElem (packFrame d) ⟨b, hb⟩).trans (extractLsb'_packFrame d ⟨b, hb⟩)

@[simp] theorem packFrame_unpackFrame (f : FrameWord) : packFrame (unpackFrame f) = f := by
  apply BitVec.eq_of_getLsbD_eq
  intro p hp
  have hplace : 56 - 8 * (7 - p / 8) + p % 8 = p := by omega
  have hbit := packFrame_getLsbD (unpackFrame f) ⟨7 - p / 8, by omega⟩ (Nat.mod_lt p (by decide))
  rw [unpackFrame_getElem, BitVec.getLsbD_extractLsb'] at hbit
  simpa [hplace, Nat.mod_lt] using hbit

theorem unpackFrame_eq_iff (f : FrameWord) (d : Frame) : unpackFrame f = d ↔ f = packFrame d :=
  ⟨fun h => by rw [← h, packFrame_unpackFrame], fun h => by rw [h, unpackFrame_packFrame]⟩

/-! ### A request word and its fields (R42) -/

/-- The fields of a word and its reserved bits are all of it. -/
theorem ReqWord.eq_fields (w : ReqWord) :
    w = fieldAt 128 123 w.rsv0 ||| fieldAt 128 96 w.rsv1 ||| w.fields.word := by
  have hones : BitVec.allOnes 128 =
      fieldAt 128 123 (BitVec.allOnes 5) ||| fieldAt 128 96 (BitVec.allOnes 8) |||
        (fieldAt 128 122 (BitVec.allOnes 1) ||| fieldAt 128 120 (BitVec.allOnes 2) |||
          fieldAt 128 112 (BitVec.allOnes 8) ||| fieldAt 128 104 (BitVec.allOnes 8) |||
          fieldAt 128 64 (BitVec.allOnes 32) ||| fieldAt 128 0 (BitVec.allOnes 64)) := by decide
  calc w = w &&& BitVec.allOnes 128 := BitVec.and_allOnes.symm
    _ = _ := by
      rw [hones]
      simp only [BitVec.and_or_distrib_left, and_fieldAt_allOnes]
      rfl

/-- The word of six fields is the one that has them, its reserved bits clear. -/
theorem ReqWord.eq_word_iff (w : ReqWord) (r : Request) :
    w = r.word ↔ (w.rsv0 = 0#5 ∧ w.rsv1 = 0#8) ∧ w.fields = r := by
  constructor
  · rintro rfl
    simp
  · rintro ⟨⟨h0, h1⟩, rfl⟩
    have hw := w.eq_fields
    rw [h0, h1] at hw
    simpa [fieldAt] using hw

/-- The fields of a request under a mask given field by field. -/
def Request.maskedBy (r m : Request) : Request :=
  { op     := r.op &&& m.op
    absent := r.absent &&& m.absent
    start  := r.start &&& m.start
    len    := r.len &&& m.len
    value  := r.value &&& m.value
    frame  := r.frame &&& m.frame }

theorem fields_and (w m : ReqWord) : (w &&& m).fields = w.fields.maskedBy m.fields := by
  simp [ReqWord.fields, Request.maskedBy, BitVec.extractLsb'_and]

/-- A mask that keeps the reserved bits leaves the word of `r` exactly when those are clear and the mask's fields leave
`r`. -/
theorem and_eq_word_iff (w : ReqWord) {m : ReqWord} (r : Request) (h0 : m.rsv0 = BitVec.allOnes 5)
    (h1 : m.rsv1 = BitVec.allOnes 8) :
    w &&& m = r.word ↔ (w.rsv0 = 0#5 ∧ w.rsv1 = 0#8) ∧ w.fields.maskedBy m.fields = r := by
  have hrsv0 : (w &&& m).rsv0 = w.rsv0 := by
    rw [ReqWord.rsv0, BitVec.extractLsb'_and]
    exact (congrArg (w.rsv0 &&& ·) h0).trans BitVec.and_allOnes
  have hrsv1 : (w &&& m).rsv1 = w.rsv1 := by
    rw [ReqWord.rsv1, BitVec.extractLsb'_and]
    exact (congrArg (w.rsv1 &&& ·) h1).trans BitVec.and_allOnes
  rw [ReqWord.eq_word_iff, hrsv0, hrsv1, fields_and]

/-! ### What decoding answers (R43, R51) -/

/-- `OP` names an operation or is `0b11`. -/
theorem op_cases : ∀ op : BitVec 2, op = 0#2 ∨ op = 1#2 ∨ op = 2#2 ∨ op = 3#2 := by decide

/-- What a request stands for, by its `OP`. -/
theorem Request.instr_cases (r : Request) :
    (r.op = 0#2 ∧ r.instr = .ok (.extractBeLsb r.data r.start r.len)) ∨
    (r.op = 1#2 ∧ r.instr = .ok (.extractBeLsbSigned r.data r.start r.len)) ∨
    (r.op = 2#2 ∧ r.instr = .ok (.signExtend r.value r.len)) ∨
    (r.op = 3#2 ∧ r.instr = .error .op) := by
  rcases op_cases r.op with h | h | h | h <;> simp [Request.instr, h]

theorem instr_of_reservedOp {r : Request} (h : r.op = 3#2) : r.instr = .error .op := by
  simp [Request.instr, h]

theorem instr_eq_extractBeLsb_iff (r : Request) (d : Option Frame) (s l : Byte) :
    r.instr = .ok (.extractBeLsb d s l) ↔ r.op = 0#2 ∧ r.data = d ∧ r.start = s ∧ r.len = l := by
  rcases r.instr_cases with ⟨hop, hi⟩ | ⟨hop, hi⟩ | ⟨hop, hi⟩ | ⟨hop, hi⟩ <;> simp [hop, hi]

theorem instr_eq_extractBeLsbSigned_iff (r : Request) (d : Option Frame) (s l : Byte) :
    r.instr = .ok (.extractBeLsbSigned d s l) ↔ r.op = 1#2 ∧ r.data = d ∧ r.start = s ∧ r.len = l := by
  rcases r.instr_cases with ⟨hop, hi⟩ | ⟨hop, hi⟩ | ⟨hop, hi⟩ | ⟨hop, hi⟩ <;> simp [hop, hi]

theorem instr_eq_signExtend_iff (r : Request) (v : Word) (n : Byte) :
    r.instr = .ok (.signExtend v n) ↔ r.op = 2#2 ∧ r.value = v ∧ r.len = n := by
  rcases r.instr_cases with ⟨hop, hi⟩ | ⟨hop, hi⟩ | ⟨hop, hi⟩ | ⟨hop, hi⟩ <;> simp [hop, hi]

theorem exists_instr_iff (r : Request) : (∃ i, r.instr = .ok i) ↔ r.OpDefined := by
  rcases r.instr_cases with ⟨hop, hi⟩ | ⟨hop, hi⟩ | ⟨hop, hi⟩ | ⟨hop, hi⟩ <;> simp [hop, hi]

theorem decode_of_clear {w : ReqWord} (h0 : w.rsv0 = 0#5) (h1 : w.rsv1 = 0#8) : decode w = w.fields.instr := by
  simp [decode, h0, h1]

theorem decode_of_reservedBit {w : ReqWord} (h : w.rsv0 ≠ 0#5 ∨ w.rsv1 ≠ 0#8) : decode w = .error .bit :=
  if_pos h

/-- A word decodes to what its fields stand for, its reserved bits being clear. -/
theorem decode_eq_ok_iff (w : ReqWord) (i : Instr) :
    decode w = .ok i ↔ (w.rsv0 = 0#5 ∧ w.rsv1 = 0#8) ∧ w.fields.instr = .ok i := by
  by_cases h : w.rsv0 = 0#5 ∧ w.rsv1 = 0#8
  · rw [decode_of_clear h.1 h.2, and_iff_right h]
  · rw [decode_of_reservedBit (not_and_or.mp h)]
    simp [h]

theorem instr_of_decode_ok {w : ReqWord} {i : Instr} (h : decode w = .ok i) : w.fields.instr = .ok i :=
  ((decode_eq_ok_iff w i).mp h).2

theorem exists_decode_iff (w : ReqWord) : (∃ i, decode w = .ok i) ↔ ReqWord.WellFormed w := by
  simp only [decode_eq_ok_iff, exists_and_left, exists_instr_iff, ReqWord.WellFormed, rsv0Clear_iff, rsv1Clear_iff,
    opDefined_iff, and_assoc]

/-! ### Decoding under the mask of the bits used (R46) -/

theorem data_eq_some_iff (r : Request) (d : Frame) : r.data = some d ↔ r.absent = 0#1 ∧ r.frame = packFrame d := by
  rcases BitVec.eq_zero_or_eq_one r.absent with h | h <;> simp [Request.data, h, unpackFrame_eq_iff]

/-- Of an absent frame `FRAME` may hold anything (R49). -/
theorem data_eq_none_iff (r : Request) : r.data = none ↔ r.absent = 1#1 := by
  simp [Request.data]

/-- The fields an extraction uses: all but `VALUE`, and `FRAME` only where the frame is present (R41, R49). -/
def extractMask (data : Option Frame) : Request :=
  { op := .allOnes 2, absent := .allOnes 1, start := .allOnes 8, len := .allOnes 8, value := 0#32,
    frame := if data.isSome then .allOnes 64 else 0#64 }

/-- The fields an instruction uses, all ones; the others 0 (R41). -/
def usedFields (i : Instr) : Request :=
  match i with
  | .extractBeLsb data _ _ => extractMask data
  | .extractBeLsbSigned data _ _ => extractMask data
  | .signExtend _ _ =>
    { op := .allOnes 2, absent := 0#1, start := 0#8, len := .allOnes 8, value := .allOnes 32, frame := 0#64 }

/-- The bits used are the reserved bits and the fields used. -/
theorem usedBits_eq (i : Instr) :
    (usedBits i).rsv0 = BitVec.allOnes 5 ∧ (usedBits i).rsv1 = BitVec.allOnes 8 ∧ (usedBits i).fields = usedFields i := by
  rcases i with ⟨_ | d, s, l⟩ | ⟨_ | d, s, l⟩ | ⟨v, n⟩ <;>
    simp only [usedBits, usedFields, extractMask, Option.isSome_some, Option.isSome_none] <;> decide

/-- The fields an extraction uses hold the given operands. -/
theorem maskedBy_extractMask_eq_iff (r : Request) (op : BitVec 2) (data : Option Frame) (s l : Byte) :
    r.maskedBy (extractMask data) =
        { op := op, absent := absentField data, start := s, len := l, value := 0#32, frame := frameField data } ↔
      r.op = op ∧ r.data = data ∧ r.start = s ∧ r.len = l := by
  simp only [extractMask, Request.maskedBy, Request.mk.injEq, BitVec.and_allOnes, BitVec.and_zero]
  cases data with
  | none =>
    rw [data_eq_none_iff]
    simp [absentField, frameField]
  | some d =>
    rw [data_eq_some_iff, Option.isSome_some, if_pos rfl, BitVec.and_allOnes, absentField, frameField]
    simp only [Option.isNone_some, Bool.false_eq_true, if_false]
    tauto

/-- A request stands for `i` exactly when the fields `i` uses hold the operands of `i`. -/
theorem instr_eq_ok_iff_maskedBy (r : Request) (i : Instr) : r.instr = .ok i ↔ r.maskedBy (usedFields i) = i.request := by
  cases i with
  | extractBeLsb data s l =>
    exact (instr_eq_extractBeLsb_iff r data s l).trans (maskedBy_extractMask_eq_iff r _ data s l).symm
  | extractBeLsbSigned data s l =>
    exact (instr_eq_extractBeLsbSigned_iff r data s l).trans (maskedBy_extractMask_eq_iff r _ data s l).symm
  | signExtend v n =>
    rw [instr_eq_signExtend_iff]
    simp only [usedFields, Request.maskedBy, Instr.request, Request.mk.injEq, BitVec.and_allOnes, BitVec.and_zero,
      true_and]
    tauto

/-- Decoding is a comparison under the mask of the bits used. -/
theorem decode_eq_ok_iff_and_usedBits (w : ReqWord) (i : Instr) : decode w = .ok i ↔ w &&& usedBits i = encode i := by
  obtain ⟨h0, h1, hfields⟩ := usedBits_eq i
  rw [decode_eq_ok_iff, instr_eq_ok_iff_maskedBy, encode, and_eq_word_iff w i.request h0 h1, hfields]

/-! ### Decoding what was encoded (R43, R54) -/

/-- The frame operand reads back from the fields it is written in. -/
theorem data_of_fields {r : Request} {data : Option Frame} (habsent : r.absent = absentField data)
    (hframe : r.frame = frameField data) : r.data = data := by
  cases data with
  | none => exact (data_eq_none_iff r).mpr habsent
  | some d => exact (data_eq_some_iff r d).mpr ⟨habsent, hframe⟩

/-- The fields of an instruction stand for it. -/
theorem request_instr (i : Instr) : i.request.instr = .ok i := by
  cases i with
  | extractBeLsb data s l => exact (instr_eq_extractBeLsb_iff _ data s l).mpr ⟨rfl, data_of_fields rfl rfl, rfl, rfl⟩
  | extractBeLsbSigned data s l =>
    exact (instr_eq_extractBeLsbSigned_iff _ data s l).mpr ⟨rfl, data_of_fields rfl rfl, rfl, rfl⟩
  | signExtend v n => exact (instr_eq_signExtend_iff _ v n).mpr ⟨rfl, rfl, rfl⟩

theorem decode_encode (i : Instr) : decode (encode i) = .ok i := by
  rw [encode, decode_eq_ok_iff, word_fields]
  exact ⟨⟨word_rsv0 _, word_rsv1 _⟩, request_instr i⟩

/-! ### The operation map (R50) -/

/-- Under the mask of the map, the reserved bits and `OP`, a word with clear reserved bits leaves its `OP`. -/
theorem and_mapMask_eq_iff (w : ReqWord) (op : BitVec 2) :
    w &&& 0xFB0000FF000000000000000000000000#128 = fieldAt 128 120 op ↔
      (w.rsv0 = 0#5 ∧ w.rsv1 = 0#8) ∧ w.fields.op = op := by
  have hfields : ReqWord.fields 0xFB0000FF000000000000000000000000#128 =
      { op := .allOnes 2, absent := 0#1, start := 0#8, len := 0#8, value := 0#32, frame := 0#64 } := by decide
  have hword : fieldAt 128 120 op =
      Request.word { op := op, absent := 0#1, start := 0#8, len := 0#8, value := 0#32, frame := 0#64 } := by
    simp [Request.word, fieldAt]
  rw [hword, and_eq_word_iff w _ (by decide) (by decide), hfields]
  simp only [Request.maskedBy, BitVec.and_allOnes, BitVec.and_zero, Request.mk.injEq, and_true]

/-- Every row has the one mask, and an `OP` in its place as its pattern. -/
theorem mapRow_mask_and_pattern :
    ∀ r ∈ operationMap,
      r.mask = 0xFB0000FF000000000000000000000000#128 ∧ ∃ op : BitVec 2, r.pattern = fieldAt 128 120 op := by
  decide

theorem selectedRows_of_reservedBit {w : ReqWord} (h : w.rsv0 ≠ 0#5 ∨ w.rsv1 ≠ 0#8) :
    (operationMap.filter fun r => r.selects w) = [] := by
  rw [List.filter_eq_nil_iff]
  intro r hr hsel
  obtain ⟨hmask, op, hpattern⟩ := mapRow_mask_and_pattern r hr
  rw [MapRow.selects, beq_iff_eq, hmask, hpattern, and_mapMask_eq_iff] at hsel
  exact (not_and_or.mpr h) hsel.1

/-- With clear reserved bits `OP` alone decides which rows are selected. -/
theorem selectedRows_of_clear {w : ReqWord} (h0 : w.rsv0 = 0#5) (h1 : w.rsv1 = 0#8) :
    (operationMap.filter fun r => r.selects w) =
      operationMap.filter fun r => fieldAt 128 120 w.fields.op == r.pattern := by
  apply List.filter_congr
  intro r hr
  have hbits := (and_mapMask_eq_iff w w.fields.op).mpr ⟨⟨h0, h1⟩, rfl⟩
  rw [MapRow.selects, (mapRow_mask_and_pattern r hr).1, hbits]

/-- A word selects one row and decodes to that row's operation, or selects none and is reserved. -/
theorem selectedRows_cases (w : ReqWord) :
    (∃ r i, (operationMap.filter fun r => r.selects w) = [r] ∧ decode w = .ok i ∧ r.mnemonic = i.mnemonic) ∨
    (∃ e, (operationMap.filter fun r => r.selects w) = [] ∧ decode w = .error e) := by
  by_cases h : w.rsv0 = 0#5 ∧ w.rsv1 = 0#8
  · rw [selectedRows_of_clear h.1 h.2, decode_of_clear h.1 h.2]
    rcases w.fields.instr_cases with ⟨hop, hi⟩ | ⟨hop, hi⟩ | ⟨hop, hi⟩ | ⟨hop, hi⟩ <;> rw [hop, hi]
    · exact .inl ⟨_, _, rfl, rfl, rfl⟩
    · exact .inl ⟨_, _, rfl, rfl, rfl⟩
    · exact .inl ⟨_, _, rfl, rfl, rfl⟩
    · exact .inr ⟨_, rfl, rfl⟩
  · have hbit := not_and_or.mp h
    exact .inr ⟨_, selectedRows_of_reservedBit hbit, decode_of_reservedBit hbit⟩

/-! ### Operands (R45) -/

theorem fields_data (w : ReqWord) :
    w.fields.data = if w.getLsbD 122 then none else some (unpackFrame (w.extractLsb' 0 64)) := by
  simp only [BitVec.getLsbD_eq_extractLsb', beq_iff_eq]
  rfl

/-! ### Table words (log 11) -/

theorem decode_of_decodeTableWord {nbits w : Nat} {i : Instr} (h : decodeTableWord nbits w = some i) :
    decode (tableWord nbits w) = .ok i := by
  unfold decodeTableWord at h
  cases hd : decode (tableWord nbits w) with
  | ok j =>
    rw [hd] at h
    rw [Option.some.inj h]
  | error r =>
    rw [hd] at h
    cases h

end Sys2Proof

namespace Sys2Proof.Machine.Text

/-! ### The tokens of a written call (R54) -/

/-- A character of a name or a number. -/
def isWordChar (c : Char) : Bool := c.isAlphanum || c == '_'

/-- A punctuation mark: no character of a word and no blank. -/
def isMark (c : Char) : Bool := !isWordChar c && !c.isWhitespace

/-- A mark ends the word before it. -/
theorem tokens_pending_mark {c : Char} (h : isMark c = true) (pending rest : List Char) :
    tokens pending (c :: rest) = closeWord pending ++ .punct c :: tokens [] rest := by
  obtain ⟨hword, hblank⟩ : isWordChar c = false ∧ c.isWhitespace = false := by simpa [isMark] using h
  rw [isWordChar] at hword
  simp [tokens, hword, hblank]

@[simp] theorem tokens_mark {c : Char} (h : isMark c = true) (rest : List Char) :
    tokens [] (c :: rest) = .punct c :: tokens [] rest := tokens_pending_mark h [] rest

@[simp] theorem tokens_nil : tokens [] [] = [] := rfl

@[simp] theorem tokens_blank (rest : List Char) : tokens [] (' ' :: rest) = tokens [] rest := rfl

@[simp] theorem isMark_comma : isMark ',' = true := by decide

@[simp] theorem isMark_close : isMark ')' = true := by decide

/-- A word before a mark: both are tokens. -/
theorem tokens_word_mark {cs : List Char} (hne : cs ≠ []) (hcs : cs.all isWordChar = true) {m : Char}
    (hm : isMark m = true) (rest : List Char) :
    tokens [] (cs ++ m :: rest) = .word cs :: .punct m :: tokens [] rest := by
  rw [tokens_word cs (List.all_eq_true.mp hcs), tokens_pending_mark hm]
  simp [closeWord, hne]

@[simp] theorem expectMark_punct (c : Char) (ts : List Token) : expectMark c (.punct c :: ts) = some ts := by
  simp [expectMark]

/-! ### Numbers -/

theorem isWordChar_hexChar : ∀ n : Fin 16, isWordChar (hexChar n.val) = true := by decide

theorem isWordChar_of_mem_hexDigits {k v : Nat} {c : Char} (h : c ∈ hexDigits k v) : isWordChar c = true := by
  induction k generalizing v with
  | zero => cases h
  | succ k ih =>
    rcases List.mem_append.mp h with h | h
    · exact ih h
    · rw [List.mem_singleton.mp h]
      exact isWordChar_hexChar ⟨v % 16, Nat.mod_lt v (by decide)⟩

theorem isWordChar_of_mem_writeHex {k v : Nat} {c : Char} (h : c ∈ writeHex k v) : isWordChar c = true := by
  rcases List.mem_cons.mp h with rfl | h
  · decide
  · rcases List.mem_cons.mp h with rfl | h
    · decide
    · exact isWordChar_of_mem_hexDigits h

theorem writeHex_ne_nil (k v : Nat) : writeHex k v ≠ [] := List.cons_ne_nil _ _

/-- A number written with a digit for each four bits reads back, with the tokens after it. -/
theorem readOperand_writeHex {k : Nat} (hk : 0 < k) (v : BitVec (4 * k)) {m : Char} (hm : isMark m = true)
    (rest : List Char) :
    readOperand (4 * k) (tokens [] (writeHex k v.toNat ++ m :: rest)) = some (v, .punct m :: tokens [] rest) := by
  have hv : v.toNat < 16 ^ k := by
    have := v.isLt
    rwa [Nat.pow_mul] at this
  rw [tokens_word_mark (writeHex_ne_nil k _) (List.all_eq_true.mpr fun _ => isWordChar_of_mem_writeHex) hm, readOperand,
    readBits_writeHex hk v.isLt hv, BitVec.ofNat_toNat]
  simp

theorem readOperand_byte (b : Byte) {m : Char} (hm : isMark m = true) (rest : List Char) :
    readOperand 8 (tokens [] (writeHex 2 b.toNat ++ m :: rest)) = some (b, .punct m :: tokens [] rest) :=
  readOperand_writeHex (k := 2) (by decide) b hm rest

theorem readOperand_value (v : Word) {m : Char} (hm : isMark m = true) (rest : List Char) :
    readOperand 32 (tokens [] (writeHex 8 v.toNat ++ m :: rest)) = some (v, .punct m :: tokens [] rest) :=
  readOperand_writeHex (k := 8) (by decide) v hm rest

/-! ### Frames -/

theorem writeBytes_cons_cons (b c : Byte) (bs : List Byte) :
    writeBytes (b :: c :: bs) = writeHex 2 b.toNat ++ ',' :: writeBytes (c :: bs) := rfl

/-- Bytes written up to the closing bracket read back, with the tokens from that bracket on. -/
theorem readBytes_writeBytes (bs : List Byte) {n : Nat} (hlen : bs.length = n + 1) (rest : List Char) :
    readBytes n (tokens [] (writeBytes bs ++ ']' :: rest)) = some (bs, .punct ']' :: tokens [] rest) := by
  induction n generalizing bs with
  | zero =>
    obtain ⟨b, rfl⟩ := List.length_eq_one_iff.mp hlen
    rw [writeBytes, readBytes, readOperand_byte b (by decide)]
    rfl
  | succ n ih =>
    match bs, hlen with
    | b :: c :: bs, hlen =>
      have hrest := ih (c :: bs) (by simpa using hlen)
      rw [writeBytes_cons_cons, readBytes, List.append_assoc, List.cons_append, readOperand_byte b (by decide)]
      simp [hrest]

theorem readData_writeData (data : Option Frame) (rest : List Char) :
    readData (tokens [] (writeData data ++ ',' :: rest)) = some (data, .punct ',' :: tokens [] rest) := by
  cases data with
  | none =>
    rw [writeData, tokens_word_mark (cs := nullWord) (by decide) (by decide) (by decide), readData, if_pos rfl]
  | some d =>
    have hbytes := readBytes_writeBytes d.toList (n := 7) (by simp) (',' :: rest)
    rw [tokens_mark (by decide)] at hbytes
    simp only [writeData, List.cons_append, List.append_assoc, List.nil_append]
    rw [tokens_mark (by decide)]
    simp [readData, hbytes, Vector.toArray_toList]

/-! ### Calls -/

theorem readField_written (data : Option Frame) (s l : Byte) (rest : List Char) :
    readField (tokens [] (writeData data ++ ',' :: ' ' :: (writeHex 2 s.toNat ++ ',' :: ' ' ::
        (writeHex 2 l.toNat ++ ')' :: rest)))) =
      some ((data, s, l), .punct ')' :: tokens [] rest) := by
  simp [readField, readData_writeData, readOperand_byte]

/-- A call whose name and arguments read back does so as a whole. -/
theorem readLine_call {name args : List Char} {i : Instr} (hne : name ≠ []) (hname : name.all isWordChar = true)
    (hargs : readArguments name (tokens [] args) = some (i, [.punct ')'])) :
    readLine (name ++ '(' :: args) = some { request := i, states := none } := by
  rw [readLine, tokens_word_mark hne hname (by decide)]
  simp [readCall, hargs, readStated]

theorem readLine_write (i : Instr) : readLine (write i) = some { request := i, states := none } := by
  cases i with
  | extractBeLsb data s l =>
    simp only [write, List.append_assoc, List.cons_append]
    refine readLine_call (by decide) (by decide) ?_
    rw [readArguments, if_pos rfl, readField_written]
    rfl
  | extractBeLsbSigned data s l =>
    simp only [write, List.append_assoc, List.cons_append]
    refine readLine_call (by decide) (by decide) ?_
    rw [readArguments, if_neg (by decide), if_pos rfl, readField_written]
    rfl
  | signExtend v n =>
    simp only [write, List.append_assoc, List.cons_append]
    refine readLine_call (by decide) (by decide) ?_
    rw [readArguments, if_neg (by decide), if_neg (by decide), if_pos rfl, readOperand_value v (by decide)]
    simp [readOperand_byte]

end Sys2Proof.Machine.Text

/-- Settles O1: the word's reserved bits are clear, and its fields are those of the instruction. -/
theorem decodeOfEncodeIsTheInstruction : Obligations.DecodeOfEncodeIsTheInstruction := decode_encode

/-- Settles O2: decoding is a comparison with the encoding under the mask of the bits used. -/
theorem encodeOfDecodeClearsIgnoredFields : Obligations.EncodeOfDecodeClearsIgnoredFields :=
  fun w i hd => ((decode_eq_ok_iff_and_usedBits w i).mp hd).symm

/-- Settles O3: a word either selects one row and decodes to its operation, or selects none and is reserved. -/
theorem operationMapSelectsTheDecodedOperation : Obligations.OperationMapSelectsTheDecodedOperation := by
  refine ⟨rfl, fun w => ⟨fun r _ => beq_iff_eq, ?_⟩⟩
  rcases selectedRows_cases w with ⟨r, i, hrows, hd, hname⟩ | ⟨e, hrows, hd⟩
  · simp [hrows, hd, hname]
  · simp [hrows, hd]

/-- Settles O4: a word decodes when its reserved bits are clear and its `OP` names an operation. -/
theorem decodingSucceedsExactlyOffTheReservedSpace : Obligations.DecodingSucceedsExactlyOffTheReservedSpace :=
  exists_decode_iff

/-- Settles O5: a word that decodes has none of the three, and one that does not is refused. -/
theorem reservedRequestIsRefused : Obligations.ReservedRequestIsRefused := by
  intro s w rest hreq hreserved
  cases hd : decode w with
  | error r =>
    rw [step_of_error hreq hd]
    exact refuse_cases r
  | ok i =>
    obtain ⟨⟨h0, h1⟩, hi⟩ := (decode_eq_ok_iff w i).mp hd
    have hop : w.fields.OpDefined := (exists_instr_iff _).mp ⟨i, hi⟩
    rcases hreserved with h | h | h
    · exact absurd h hop
    · exact absurd h0 h
    · exact absurd h1 h

/-- Settles O8: each byte in its place, unpacked and packed, and the example of R44. -/
theorem frameBytesSitMostSignificantFirst : Obligations.FrameBytesSitMostSignificantFirst :=
  ⟨unpackFrame_getElem, fun d b _ hk => packFrame_getLsbD d b hk, by decide⟩

/-- Settles O9: the operands are the fields `OP` selects; the clauses on `START` are its quotients by 8 and by 64. -/
theorem operandsAreTheFieldsUnchanged : Obligations.OperandsAreTheFieldsUnchanged := by
  refine ⟨fun w d s l hd => ?_, fun w v n hd => ?_, fun s _ => ⟨rfl, ?_⟩, fun s => ?_⟩
  · have hfields : w.fields.data = d ∧ w.fields.start = s ∧ w.fields.len = l := by
      rcases hd with hd | hd
      · exact ((instr_eq_extractBeLsb_iff _ d s l).mp (instr_of_decode_ok hd)).2
      · exact ((instr_eq_extractBeLsbSigned_iff _ d s l).mp (instr_of_decode_ok hd)).2
    obtain ⟨rfl, rfl, rfl⟩ := hfields
    exact ⟨rfl, rfl, fields_data w⟩
  · obtain ⟨-, hvalue, hlen⟩ := (instr_eq_signExtend_iff _ v n).mp (instr_of_decode_ok hd)
    exact ⟨hvalue.symm, hlen.symm⟩
  · rw [startPlace, Place.mk.injEq, BitVec.extractLsb'_toNat, BitVec.extractLsb'_toNat, Nat.shiftRight_eq_div_pow]
    omega
  · have hhigh : (s.extractLsb' 6 2).toNat = s.toNat / 64 := by
      rw [BitVec.extractLsb'_toNat, Nat.shiftRight_eq_div_pow]
      omega
    rw [ne_eq, ← BitVec.toNat_inj, hhigh, BitVec.toNat_zero]
    omega

/-- Settles O10: words that agree on the bits used decode to the same instruction. -/
theorem ignoredFieldsDoNotMatter : Obligations.IgnoredFieldsDoNotMatter := by
  intro s w w' i hd hagree
  have hd' : decode w' = .ok i := by
    rw [decode_eq_ok_iff_and_usedBits] at hd ⊢
    rw [← hagree, hd]
  rw [step_of_ok (State.presentFirst_requests s w) hd, step_of_ok (State.presentFirst_requests s w') hd']
  rfl

/-- Settles O12: a written call reads back operand by operand. -/
theorem writtenRequestReadsBack : Obligations.WrittenRequestReadsBack := Text.readLine_write

/-- Settles O55: an issued program is a run of requests that decode to its instructions. -/
theorem issuedProgramRunsTopToBottom : Obligations.IssuedProgramRunsTopToBottom := by
  intro s is hreq
  have hpending : (s.presentAll is).requests = is.map encode ++ [] := by simp [hreq]
  have hdecode : (is.map encode).map decode = is.map .ok := by simp [Function.comp_def, decode_encode]
  simpa using runAnswersEveryRequestInOrder _ _ [] is hpending hdecode

/-- Settles O6: reserved bits are looked at first, `OP` where they are clear. -/
theorem refusalNamesTheReservedField : Obligations.RefusalNamesTheReservedField := by
  refine fun s w rest hreq => ⟨fun hbit => ?_, fun hop h0 h1 => ?_⟩
  · exact step_of_error hreq (decode_of_reservedBit hbit)
  · exact step_of_error hreq ((decode_of_clear h0 h1).trans (instr_of_reservedOp hop))

/-- Settles O11: the `OP` of the encoding is that of the extraction chosen. -/
theorem extractSignalFollowsIsSigned : Obligations.ExtractSignalFollowsIsSigned := by
  intro d s l isSigned
  have hop : (encode (extractSignal d s l isSigned)).extractLsb' 120 2 = (extractSignal d s l isSigned).request.op :=
    congrArg Request.op (word_fields _)
  rw [hop]
  cases isSigned <;> simp [extractSignal, Instr.request]

/-- Settles O45: the step takes the first request, and the decoded instruction is carried out without it. -/
theorem stepRunsTheDecodedRequest : Obligations.StepRunsTheDecodedRequest :=
  fun _ _ _ _ hreq hd => step_of_ok hreq hd

/-- Settles O47: the loaded word stands first among the requests, and taking it leaves the state before. -/
theorem loadedWordRunsNext : Obligations.LoadedWordRunsNext :=
  fun s _ _ hd => step_of_ok (State.presentFirst_requests s _) (decode_of_decodeTableWord hd)
end

section
/-! The obligations of `40_extract.md`: the field an unsigned extraction answers, bit by bit and as a number. The bits are
those the traversal visits before the length and the frame end (R62 to R64), the number is the stream sum (R66); the rest
follows from these two. -/

open Sys2Proof Sys2Proof.Machine

namespace Sys2Proof.Machine

/-! ### The response of an extraction -/

/-- An extraction answers its field and changes nothing else. -/
theorem exec_extractBeLsb {data : Option Frame} {s l : Byte} {v : Word} (h : extractBeLsb data s l = v) (st : State) :
    exec (.extractBeLsb data s l) st = .next (st.afterAnswer (.extractBeLsb data s l) v) :=
  h ▸ exec_eq _ st

theorem degenerate_eq_true_iff (s l : Byte) :
    degenerate s l = true ↔ l.toNat = 0 ∨ 32 < l.toNat ∨ 64 ≤ s.toNat := by
  rw [← Bool.not_eq_false, degenerate_eq_false_iff]
  omega

theorem avail_pos (s : Byte) : 1 ≤ avail s := by
  unfold avail
  omega

/-! ### The field bit by bit (`40_extract.md` R62 to R64) -/

/-- The bits of a field are those visited before its length and the frame end, and 0 above. -/
theorem extractBeLsb_getLsbD_min (d : Frame) {s l : Byte} (hdeg : degenerate s l = false) (j : Nat) :
    (extractBeLsb (some d) s l).getLsbD j = (decide (j < min l.toNat (avail s)) && placeBit d (trav s j)) := by
  obtain ⟨-, hlen, hs⟩ := (degenerate_eq_false_iff s l).mp hdeg
  by_cases hj : j < 32
  · rw [extractBeLsb_getLsbD d hdeg hj]
    by_cases hav : j < avail s
    · simp [hav]
    · simp [placeBit_trav_of_avail_le d hs (Nat.not_lt.mp hav)]
  · have hmin : ¬ j < min l.toNat (avail s) := by omega
    simp [hmin, BitVec.getLsbD_of_ge _ _ (Nat.not_lt.mp hj)]

/-- Where two fields from one start end at the same place, by their length or by the frame end, they are equal. -/
theorem extractBeLsb_eq_of_min_eq (d : Frame) {s l l' : Byte} (hdeg : degenerate s l = false)
    (hdeg' : degenerate s l' = false) (h : min l.toNat (avail s) = min l'.toNat (avail s)) :
    extractBeLsb (some d) s l = extractBeLsb (some d) s l' := by
  apply BitVec.eq_of_getLsbD_eq
  intro j _
  rw [extractBeLsb_getLsbD_min d hdeg, extractBeLsb_getLsbD_min d hdeg', h]

/-! ### The field as a number (`40_extract.md` R65, R66) -/

theorem closedField_of_degenerate (data : Option Frame) {s l : Byte} (hdeg : degenerate s l = true) :
    closedField data s l = 0 := by
  cases data <;> simp [closedField, hdeg]

theorem closedField_of_frame (d : Frame) {s l : Byte} (hdeg : degenerate s l = false) :
    closedField (some d) s l = streamSum d s l.toNat := by
  simp [closedField, hdeg]

theorem closedField_lt (data : Option Frame) (s l : Byte) : closedField data s l < 2 ^ l.toNat := by
  have hpos : 0 < 2 ^ l.toNat := Nat.two_pow_pos l.toNat
  cases data with
  | none => exact hpos
  | some d =>
    cases hdeg : degenerate s l with
    | true => rwa [closedField_of_degenerate _ hdeg]
    | false => rw [closedField_of_frame d hdeg]; exact streamSum_lt d s l.toNat

theorem closedField_lt_word (data : Option Frame) (s l : Byte) : closedField data s l < 2 ^ 32 := by
  cases hdeg : degenerate s l with
  | true => simp [closedField_of_degenerate data hdeg]
  | false =>
    obtain ⟨-, hlen, -⟩ := (degenerate_eq_false_iff s l).mp hdeg
    exact Nat.lt_of_lt_of_le (closedField_lt data s l) (Nat.pow_le_pow_right (by decide) hlen)

/-- The field is its closed form as a number: no bit of the sum is lost in the 32 bits of the response. -/
theorem extractBeLsb_toNat (data : Option Frame) (s l : Byte) :
    (extractBeLsb data s l).toNat = closedField data s l := by
  rw [extractBeLsb_eq_closedField, BitVec.toNat_ofNat, Nat.mod_eq_of_lt (closedField_lt_word data s l)]

theorem extractBeLsb_toNat_lt (data : Option Frame) (s l : Byte) : (extractBeLsb data s l).toNat < 2 ^ l.toNat := by
  rw [extractBeLsb_toNat]
  exact closedField_lt data s l

theorem extractBeLsb_toNat_eq_streamSum (d : Frame) {s l : Byte} (hdeg : degenerate s l = false) :
    (extractBeLsb (some d) s l).toNat = streamSum d s l.toNat := by
  rw [extractBeLsb_toNat, closedField_of_frame d hdeg]

/-- A shorter stream sum is the low bits of a longer one. -/
theorem streamSum_mod_two_pow (d : Frame) (s : Byte) {m n : Nat} (h : m ≤ n) :
    streamSum d s n % 2 ^ m = streamSum d s m := by
  apply Nat.eq_of_testBit_eq
  intro j
  rw [Nat.testBit_mod_two_pow, streamSum_testBit, streamSum_testBit]
  by_cases hj : j < m
  · have hjn : j < n := by omega
    simp [hj, hjn]
  · simp [hj]

/-! ### Fields of one bit (`40_extract.md` R67) -/

/-- A field of one bit is the bit at its start. -/
theorem extractBeLsb_one (d : Frame) {s : Byte} (hs : s.toNat ≤ 63) :
    extractBeLsb (some d) s 1#8 = BitVec.ofNat 32 (placeBit d (startPlace s)).toNat := by
  have hdeg : degenerate s 1#8 = false := (degenerate_eq_false_iff s 1#8).mpr ⟨by decide, by decide, hs⟩
  have hclosed : closedField (some d) s 1#8 = streamTerm d s 0 := by
    rw [closedField_of_frame d hdeg]
    exact (streamSum_succ d s 0).trans (Nat.zero_add _)
  rw [extractBeLsb_eq_closedField, hclosed, streamTerm_eq, trav_zero]
  cases placeBit d (startPlace s) <;> rfl

/-- The bit at the start of a field is `FrameBit` of the start's byte and bit index. -/
theorem placeBit_startPlace_toNat (d : Frame) {s : Byte} (h : s.toNat / 8 < 8) :
    (placeBit d (startPlace s)).toNat = (frameBit d ⟨s.toNat / 8, h⟩ (s.toNat % 8)).toNat := by
  rw [placeBit_of_lt d (p := startPlace s) h, frameBit_toNat]
  rfl

/-- In the frame with only position `p` set, the bit at a start is set exactly when the start is `p`. -/
theorem placeBit_onlyPosition_startPlace (p : Nat) {s : Byte} (hs : s.toNat ≤ 63) :
    placeBit (onlyPosition p) (startPlace s) = decide (s.toNat = p) := by
  have hbyte : s.toNat / 8 < 8 := by omega
  have hbit := onlyPosition_getLsbD p ⟨s.toNat / 8, hbyte⟩ (k := s.toNat % 8) (by omega)
  rw [Nat.div_add_mod] at hbit
  rw [placeBit_of_lt _ (p := startPlace s) hbyte]
  exact hbit

/-! ### Frames of eight equal bytes (`40_extract.md` R68) -/

theorem placeBit_replicate (b : Byte) {p : Place} (h : p.byte < 8) :
    placeBit (Vector.replicate 8 b) p = b.getLsbD p.bit := by
  rw [placeBit_of_lt _ h, Vector.getElem_replicate]

theorem placeBit_zeros (p : Place) : placeBit (Vector.replicate 8 0x00#8) p = false := by
  by_cases h : p.byte < 8
  · simp [placeBit_replicate _ h]
  · exact placeBit_of_ge _ (Nat.not_lt.mp h)

theorem placeBit_ones_trav {s : Byte} (hs : s.toNat ≤ 63) {i : Nat} (hi : i < avail s) :
    placeBit (Vector.replicate 8 0xFF#8) (trav s i) = true := by
  have hin : (trav s i).byte ≤ 7 := by simpa [Place.inFrame] using (trav_inFrame_iff hs i).mpr hi
  have hbit : (trav s i).bit < 8 := Nat.lt_succ_of_le (trav_bit_le s i)
  rw [placeBit_replicate _ (Nat.lt_succ_of_le hin)]
  exact (BitVec.getLsbD_allOnes (v := 8)).trans (decide_eq_true hbit)

theorem extractBeLsb_zeros (s l : Byte) : extractBeLsb (some (Vector.replicate 8 0x00#8)) s l = 0#32 := by
  cases hdeg : degenerate s l with
  | true => exact extractBeLsb_of_degenerate _ hdeg
  | false =>
    apply BitVec.eq_of_getLsbD_eq
    intro j _
    simp [extractBeLsb_getLsbD_min _ hdeg, placeBit_zeros]

/-- From the all-ones frame every bit gathered is 1. -/
theorem extractBeLsb_ones {s l : Byte} (hdeg : degenerate s l = false) :
    extractBeLsb (some (Vector.replicate 8 0xFF#8)) s l = BitVec.ofNat 32 (2 ^ min l.toNat (avail s) - 1) := by
  obtain ⟨-, -, hs⟩ := (degenerate_eq_false_iff s l).mp hdeg
  apply BitVec.eq_of_getLsbD_eq
  intro j hj
  rw [extractBeLsb_getLsbD_min _ hdeg, BitVec.getLsbD_ofNat, Nat.testBit_two_pow_sub_one, decide_eq_true hj,
    Bool.true_and]
  by_cases hmin : j < min l.toNat (avail s)
  · rw [placeBit_ones_trav hs (by omega), Bool.and_true]
  · simp [hmin]

/-! ### A whole byte (`40_extract.md` R70) -/

/-- From bit 7 of a byte the first eight places are the bits of that byte, downward. -/
theorem trav_from_bit_seven {s : Byte} {b : Nat} (hs : s.toNat = 8 * b + 7) {i : Nat} (hi : i < 8) :
    trav s i = { byte := b, bit := 7 - i } := by
  rw [Place.eq_of_streamIndex (trav_bit_le s i), streamIndex_trav, startPlace_streamIndex, Place.mk.injEq]
  omega

end Sys2Proof.Machine

/-- Settles O21: the field's bits are those visited before its length and the frame end. -/
theorem extractAnswersTheVisitedBits : Obligations.ExtractAnswersTheVisitedBits := by
  intro st d s l hpos hlen hs
  have hdeg : degenerate s l = false := (degenerate_eq_false_iff s l).mpr ⟨hpos, hlen, hs⟩
  exact ⟨_, exec_eq _ st, fun i _ => extractBeLsb_getLsbD_min d hdeg i⟩

/-- Settles O23: three of the conditions make the descriptor degenerate, the fourth is the absent frame. -/
theorem degenerateExtractAnswersZero : Obligations.DegenerateExtractAnswersZero := by
  intro st data s l h
  have hcases : degenerate s l = true ∨ data = none := by rw [degenerate_eq_true_iff]; tauto
  rcases hcases with hdeg | rfl
  · exact exec_extractBeLsb (extractBeLsb_of_degenerate data hdeg) st
  · exact exec_extractBeLsb (extractBeLsb_of_absent s l) st

/-- Settles O24: the field is the stream sum, whose terms have the stream indices from the start's onward. -/
theorem extractAnswersTheStreamSum : Obligations.ExtractAnswersTheStreamSum := by
  intro st d s l hpos hlen hs
  have hdeg : degenerate s l = false := (degenerate_eq_false_iff s l).mpr ⟨hpos, hlen, hs⟩
  refine ⟨_, exec_eq _ st, ?_⟩
  rw [← startPlace_streamIndex]
  exact extractBeLsb_toNat_eq_streamSum d hdeg

/-- Settles O25: the field is below `2^length`, and the first 32 bits of the all-ones frame are all 1. -/
theorem extractStaysBelowTwoToTheLength : Obligations.ExtractStaysBelowTwoToTheLength := by
  refine ⟨fun st data s l => ⟨_, exec_eq _ st, extractBeLsb_toNat_lt data s l⟩, fun st => ?_⟩
  have hones := extractBeLsb_ones (s := 7#8) (l := 32#8) (by decide)
  exact ⟨_, 7#8, exec_extractBeLsb (hones.trans (by decide)) st⟩

/-- Settles O26: the shorter stream sum is the low bits of the longer one, and bit 0 is the bit at the start. -/
theorem longerFieldAddsOnlyHigherBits : Obligations.LongerFieldAddsOnlyHigherBits := by
  intro st d s m n hs hpos hmn hlen
  have hdegm : degenerate s m = false := (degenerate_eq_false_iff s m).mpr ⟨hpos, by omega, hs⟩
  have hdegn : degenerate s n = false := (degenerate_eq_false_iff s n).mpr ⟨by omega, hlen, hs⟩
  refine ⟨extractBeLsb (some d) s m, extractBeLsb (some d) s n, exec_eq _ st, exec_eq _ st, ?_, ?_⟩
  · rw [extractBeLsb_toNat_eq_streamSum d hdegm, extractBeLsb_toNat_eq_streamSum d hdegn, streamSum_mod_two_pow d s hmn]
  · rw [extractBeLsb_getLsbD d hdegm (by decide), decide_eq_true (p := 0 < m.toNat) hpos, Bool.true_and, trav_zero]

/-- Settles O27: the field that overruns ends where the field of `Avail` bits does, so the two are equal, and below
`2^Avail`. -/
theorem overrunAnswersTheGatheredBits : Obligations.OverrunAnswersTheGatheredBits := by
  intro st d s l hs hover hlen
  have hcut : (BitVec.ofNat 8 (avail s)).toNat = avail s := by
    rw [BitVec.toNat_ofNat]
    omega
  have hdeg : degenerate s l = false := (degenerate_eq_false_iff s l).mpr ⟨by omega, hlen, hs⟩
  have hdegcut : degenerate s (BitVec.ofNat 8 (avail s)) = false :=
    (degenerate_eq_false_iff _ _).mpr ⟨by rw [hcut]; exact avail_pos s, by omega, hs⟩
  have heq := extractBeLsb_eq_of_min_eq d hdegcut hdeg (by omega)
  refine ⟨extractBeLsb (some d) s l, exec_eq _ st, fun i hi => ?_, ?_, exec_extractBeLsb heq st⟩
  · have hmin : i < min l.toNat (avail s) := by omega
    rw [extractBeLsb_getLsbD_min d hdeg, decide_eq_true hmin, Bool.true_and]
  · have hlt := extractBeLsb_toNat_lt (some d) s (BitVec.ofNat 8 (avail s))
    rwa [heq, hcut] at hlt

/-- Settles O28: a field of one bit is the bit at its start. -/
theorem singleBitFidelity : Obligations.SingleBitFidelity := by
  refine ⟨fun st p s _ hs => exec_extractBeLsb ?_ st, fun st d s hbyte => exec_extractBeLsb ?_ st⟩
  · rw [extractBeLsb_one _ hs, placeBit_onlyPosition_startPlace p hs]
    by_cases hp : s.toNat = p <;> simp [hp]
  · rw [extractBeLsb_one d (by omega), placeBit_startPlace_toNat d hbyte]

/-- Settles O29: no bit of the all-zero frame is set, and every bit of the all-ones frame. -/
theorem allZeroAndAllOnesFrames : Obligations.AllZeroAndAllOnesFrames := by
  intro st s l hs hpos hlen
  have hdeg : degenerate s l = false := (degenerate_eq_false_iff s l).mpr ⟨hpos, hlen, hs⟩
  refine ⟨exec_extractBeLsb (extractBeLsb_zeros s l) st, fun hfits => exec_extractBeLsb ?_ st⟩
  rw [extractBeLsb_ones hdeg, Nat.min_eq_left hfits]

/-- Settles O30: the frame end cuts the field to `Avail` bits, all of them 1. -/
theorem allOnesFrameWithOverrun : Obligations.AllOnesFrameWithOverrun := by
  intro st s l hs hover hlen
  have hdeg : degenerate s l = false := (degenerate_eq_false_iff s l).mpr ⟨by omega, hlen, hs⟩
  apply exec_extractBeLsb
  rw [extractBeLsb_ones hdeg, Nat.min_eq_right (Nat.le_of_lt hover)]

/-- Settles O31: the eight places from bit 7 of the byte are its bits downward. -/
theorem byteReadFromBitSevenIsReversed : Obligations.ByteReadFromBitSevenIsReversed := by
  intro st d b
  have hb : b.val < 8 := b.isLt
  have hs : (BitVec.ofNat 8 (8 * b.val + 7)).toNat = 8 * b.val + 7 := by
    rw [BitVec.toNat_ofNat]
    omega
  have hdeg : degenerate (BitVec.ofNat 8 (8 * b.val + 7)) 8#8 = false :=
    (degenerate_eq_false_iff _ _).mpr ⟨by decide, by decide, by omega⟩
  refine ⟨_, exec_eq _ st, fun i hi => ?_, extractBeLsb_toNat_lt (some d) _ 8#8⟩
  have hbit := extractBeLsb_getLsbD d hdeg (j := i) (by omega)
  rw [trav_from_bit_seven hs hi, placeBit_of_lt d hb, decide_eq_true (p := i < (8#8).toNat) hi, Bool.true_and] at hbit
  exact hbit

/-- Settles O49: the response of every instruction is the one in closed form. -/
theorem everyInstructionAnswersItsClosedForm : Obligations.EveryInstructionAnswersItsClosedForm :=
  fun s i => exec_eq_rightExchange i s

/-- Settles O32: the field of two bits from position 0 goes on at position 15, and both its bits are 1. -/
theorem crossByteContinuity : Obligations.CrossByteContinuity :=
  ⟨rfl, exec_extractBeLsb (by decide)⟩
end

section
/-! The obligations of `41_sign_extend.md`: the response of `sign_extend` bit by bit and as a signed number, and the range of
the traversal's indices. -/

open Sys2Proof Sys2Proof.Machine

namespace Sys2Proof.Machine

/-! ### The response of a sign extension (`41_sign_extend.md` R81, R83) -/

/-- A sign extension answers the pattern of its result and changes nothing else. -/
theorem exec_signExtend {v r : Word} {n : Byte} (h : toUnsigned32 (signExtend v n) = r) (st : State) :
    exec (.signExtend v n) st = .next (st.afterAnswer (.signExtend v n) r) :=
  h ▸ exec_eq _ st

theorem toUnsigned32_signExtend_of_noOp (v : Word) {n : Byte} (hn : n.toNat = 0 ∨ 32 ≤ n.toNat) :
    toUnsigned32 (signExtend v n) = v := by
  rw [toUnsigned32_signExtend, if_pos hn]

/-- Below the length the bits are the value's; from it upward the sign bit is added to them. -/
theorem toUnsigned32_signExtend_getLsbD (v : Word) {n : Byte} (hpos : 1 ≤ n.toNat) (hlen : n.toNat ≤ 31) {i : Nat}
    (hi : i < 32) :
    (toUnsigned32 (signExtend v n)).getLsbD i =
      (v.getLsbD i || (decide (n.toNat ≤ i) && v.getLsbD (n.toNat - 1))) := by
  rw [toUnsigned32_signExtend, if_neg (by omega)]
  cases v.getLsbD (n.toNat - 1) with
  | false => simp
  | true =>
    rw [if_pos rfl, BitVec.getLsbD_or, fillMask_getLsbD n hlen]
    simp [hi]

/-! ### The result as a signed number (`41_sign_extend.md` R82) -/

/-- In a value of `n` bits the sign bit is set exactly from `2^(n-1)` upward. -/
theorem div_mod_two_eq_one_iff {v m : Nat} (hv : v < 2 ^ (m + 1)) : v / 2 ^ m % 2 = 1 ↔ ¬ v < 2 ^ m := by
  have hlt : v / 2 ^ m < 2 := by rwa [Nat.div_lt_iff_lt_mul (Nat.two_pow_pos m), ← Nat.pow_succ']
  rw [Nat.mod_eq_of_lt hlt, ← Nat.div_eq_zero_iff_lt (Nat.two_pow_pos m)]
  generalize v / 2 ^ m = q at hlt ⊢
  omega

/-- On a value of `n` bits the closed form is the two's-complement reading of `n` bits. -/
theorem closedSigned_of_lt {v : Word} {n : Nat} (hpos : 1 ≤ n) (hlen : n ≤ 31) (hv : v.toNat < 2 ^ n) :
    closedSigned v n = if v.toNat < 2 ^ (n - 1) then (v.toNat : Int) else (v.toNat : Int) - 2 ^ n := by
  obtain ⟨m, rfl⟩ := Nat.exists_eq_add_of_le' hpos
  have hword : v.toNat < 2 ^ 31 := Nat.lt_of_lt_of_le hv (Nat.pow_le_pow_right (by decide) hlen)
  rw [closedSigned, if_neg (by omega), Nat.add_sub_cancel]
  simp only [div_mod_two_eq_one_iff hv, Nat.mod_eq_of_lt hv, toSigned32, if_pos hword, ite_not]
  push_cast
  rfl

/-- On a value of `length` bits `sign_extend` is read as the two's-complement number of those bits. -/
theorem toSigned32_signExtend_of_lt {v : Word} {n : Byte} (hpos : 1 ≤ n.toNat) (hlen : n.toNat ≤ 31)
    (hv : v.toNat < 2 ^ n.toNat) :
    toSigned32 (toUnsigned32 (signExtend v n)) =
      if v.toNat < 2 ^ (n.toNat - 1) then (v.toNat : Int) else (v.toNat : Int) - 2 ^ n.toNat := by
  obtain ⟨-, -, toSigned32_toUnsigned32⟩ := signedReadingIsReversible
  have hpow : (2 ^ n.toNat : Int) ≤ 2 ^ 31 := pow_le_pow_right₀ (by decide) hlen
  have hlt : (v.toNat : Int) < 2 ^ n.toNat := by exact_mod_cast hv
  rw [← closedSigned_eq, closedSigned_of_lt hpos hlen hv]
  apply toSigned32_toUnsigned32 <;> split <;> omega

end Sys2Proof.Machine

/-- Settles O20: `Avail` places on, the stream index has reached 64 at most, and it is at least 8 for each byte. -/
theorem traversalIndicesStayInRange : Obligations.TraversalIndicesStayInRange := by
  intro s i hs hi
  have hstart := startPlace_streamIndex_add_avail hs
  have hindex := streamIndex_trav s i
  have hbit := trav_bit_le s i
  refine ⟨?_, hbit⟩
  rw [Place.streamIndex] at hindex
  omega

/-- Settles O34: the sign bit is added to the bits the fill mask selects. -/
theorem signExtendFillsAboveASetSignBit : Obligations.SignExtendFillsAboveASetSignBit :=
  fun s v _ hpos hlen => ⟨_, exec_eq _ s, fun _ hi => toUnsigned32_signExtend_getLsbD v hpos hlen hi⟩

/-- Settles O35: at these lengths the response is the value, which the host reads as signed. -/
theorem signExtendLeavesNoOpLengthsUnchanged : Obligations.SignExtendLeavesNoOpLengthsUnchanged :=
  fun s v _ hn => ⟨exec_signExtend (toUnsigned32_signExtend_of_noOp v hn) s, rfl⟩

/-- Settles O36: the closed form of a value of `n` bits is its two's-complement reading, and fits the 32 bits of the
response. -/
theorem signExtendIsTheTwosComplementMapping : Obligations.SignExtendIsTheTwosComplementMapping :=
  fun s _ _ hpos hlen hv => ⟨_, exec_eq _ s, toSigned32_signExtend_of_lt hpos hlen hv⟩

/-- Settles O37: each call's response, computed. -/
theorem signExtendWorkedValues : Obligations.SignExtendWorkedValues := by
  intro s
  refine ⟨?_, ?_, ?_, ?_, ?_, ?_, ?_, ?_⟩ <;> exact exec_signExtend (by decide) s
end

section
/-! The obligations of `42_extract_signed.md`: the response of `extract_be_lsb_signed`, the sign extension of the raw field
(R90). What a degenerate descriptor, a field of 1, 31 or 32 bits and an overrun answer follows from the facts about its two
parts. -/

open Sys2Proof Sys2Proof.Machine

namespace Sys2Proof.Machine

/-- A signed extraction answers the pattern of its raw field's sign extension and changes nothing else. -/
theorem exec_extractBeLsbSigned {data : Option Frame} {s l : Byte} {v r : Word} (hraw : extractBeLsb data s l = v)
    (hsigned : toUnsigned32 (signExtend v l) = r) (st : State) :
    exec (.extractBeLsbSigned data s l) st = .next (st.afterAnswer (.extractBeLsbSigned data s l) r) := by
  subst hraw hsigned
  exact exec_eq _ st

/-- A value whose sign bit is clear is not filled (`41_sign_extend.md` R83). -/
theorem toUnsigned32_signExtend_of_signBit_clear {v : Word} {n : Byte} (h : v.getLsbD (n.toNat - 1) = false) :
    toUnsigned32 (signExtend v n) = v := by
  simp [toUnsigned32_signExtend, h]

theorem toUnsigned32_signExtend_zero (n : Byte) : toUnsigned32 (signExtend 0#32 n) = 0#32 :=
  toUnsigned32_signExtend_of_signBit_clear BitVec.getLsbD_zero

theorem toSigned32_nonneg_of_bit_31_clear {u : Word} (h : u.getLsbD 31 = false) : 0 ≤ toSigned32 u := by
  rw [toSigned32_eq_toInt]
  exact BitVec.toInt_nonneg_of_msb_false (by rwa [BitVec.msb_eq_getLsbD_last])

/-- An extraction answers 0 without reading a bit where its descriptor is degenerate or its frame absent
(`40_extract.md` R61). -/
theorem extractBeLsb_eq_zero {data : Option Frame} {s l : Byte}
    (h : l.toNat = 0 ∨ 32 < l.toNat ∨ 64 ≤ s.toNat ∨ data = none) : extractBeLsb data s l = 0#32 := by
  have hcases : degenerate s l = true ∨ data = none := by rw [degenerate_eq_true_iff]; tauto
  rcases hcases with hdeg | rfl
  · exact extractBeLsb_of_degenerate data hdeg
  · exact extractBeLsb_of_absent s l

/-- A field that overruns has no bit from `Avail` upward (`40_extract.md` R63). -/
theorem extractBeLsb_getLsbD_of_avail_le (d : Frame) {s l : Byte} (hdeg : degenerate s l = false) {j : Nat}
    (hj : avail s ≤ j) : (extractBeLsb (some d) s l).getLsbD j = false := by
  have hmin : ¬ j < min l.toNat (avail s) := by omega
  simp [extractBeLsb_getLsbD_min d hdeg, hmin]

end Sys2Proof.Machine

/-- Settles O39: the raw field is 0, whose sign bit is clear at every length. -/
theorem degenerateSignedExtractAnswersZero : Obligations.DegenerateSignedExtractAnswersZero :=
  fun st _ _ l h => exec_extractBeLsbSigned (extractBeLsb_eq_zero h) (toUnsigned32_signExtend_zero l) st

/-- Settles O40: the raw field is below `2^length`, where sign extension is the two's-complement mapping. -/
theorem signedExtractReadsTheFieldInTwosComplement : Obligations.SignedExtractReadsTheFieldInTwosComplement :=
  fun st data s l hpos hlen =>
    ⟨_, _, exec_eq _ st, exec_eq _ st, toSigned32_signExtend_of_lt hpos hlen (extractBeLsb_toNat_lt data s l)⟩

/-- Settles O41: 32 is a no-op length of sign extension, and the one bit of a field is its own sign bit. -/
theorem signedExtractOfFullAndOneBitFields : Obligations.SignedExtractOfFullAndOneBitFields := by
  refine ⟨fun st data s => ⟨_, exec_eq _ st, ?_⟩, fun st d s hs => ?_⟩
  · exact exec_extractBeLsbSigned rfl (toUnsigned32_signExtend_of_noOp _ (.inr (by decide))) st
  · apply exec_extractBeLsbSigned (extractBeLsb_one d hs)
    cases placeBit d (startPlace s) <;> decide

/-- Settles O42: `Avail` is below the length and below 32, so both the sign bit of the field and bit 31 are clear. -/
theorem signedOverrunIsThePartialValue : Obligations.SignedOverrunIsThePartialValue := by
  intro st d s l hs hover hlen
  have hdeg : degenerate s l = false := (degenerate_eq_false_iff s l).mpr ⟨by omega, hlen, hs⟩
  have hsign : (extractBeLsb (some d) s l).getLsbD (l.toNat - 1) = false :=
    extractBeLsb_getLsbD_of_avail_le d hdeg (by omega)
  have htop : (extractBeLsb (some d) s l).getLsbD 31 = false := extractBeLsb_getLsbD_of_avail_le d hdeg (by omega)
  exact ⟨_, exec_eq _ st, exec_extractBeLsbSigned rfl (toUnsigned32_signExtend_of_signBit_clear hsign) st,
    toSigned32_nonneg_of_bit_31_clear htop⟩

/-- Settles O38: the signed extraction is defined as this composition (`42_extract_signed.md` R90). -/
theorem signedExtractIsTheComposition : Obligations.SignedExtractIsTheComposition :=
  fun st _ _ _ => ⟨_, _, exec_eq _ st, exec_eq _ st, exec_extractBeLsbSigned rfl rfl st⟩
end

section
/-! The obligations of `60_exceptions.md`: what the anomalies of an extraction answer (R103, R107), the one outcome of a
request that is not reserved (R100), instances that share nothing (R112). -/

open Sys2Proof Sys2Proof.Machine

namespace Sys2Proof.Machine

/-! ### The anomalies of an extraction (R103) -/

/-- Each row of the table, with the condition under which an extraction has that anomaly. -/
theorem mem_extractAnomalies_iff (x : Anomaly) (data : Option Frame) (s l : Byte) :
    x ∈ extractAnomalies data s l ↔
      (l.toNat = 0 ∧ x = .zeroLength) ∨ (32 < l.toNat ∧ x = .lengthTooLarge) ∨
      (64 ≤ s.toNat ∧ x = .startOutOfFrame) ∨ (data = none ∧ x = .frameAbsent) ∨
      ((data.isSome = true ∧ overruns s l = true) ∧ x = .fieldOverrun) := by
  simp [extractAnomalies, Config.maxLength, Config.frameBits]

/-- An anomaly of class (a), or the absent frame, is one of the four conditions under which an extraction answers 0
(`40_extract.md` R61). -/
theorem degenerate_or_absent_of_mem_extractAnomalies {x : Anomaly} {data : Option Frame} {s l : Byte}
    (hx : x ∈ extractAnomalies data s l) (hclass : x.class = .a ∨ x.class = .likeA) :
    l.toNat = 0 ∨ 32 < l.toNat ∨ 64 ≤ s.toNat ∨ data = none := by
  rcases (mem_extractAnomalies_iff x data s l).mp hx with ⟨h, -⟩ | ⟨h, -⟩ | ⟨h, -⟩ | ⟨h, -⟩ | ⟨-, rfl⟩
  · exact .inl h
  · exact .inr (.inl h)
  · exact .inr (.inr (.inl h))
  · exact .inr (.inr (.inr h))
  · rcases hclass with h | h <;> cases h

theorem fieldOverrun_mem_extractAnomalies_iff (data : Option Frame) (s l : Byte) :
    .fieldOverrun ∈ extractAnomalies data s l ↔ data.isSome = true ∧ overruns s l = true := by
  simp [mem_extractAnomalies_iff]

theorem overruns_eq_true_iff (s l : Byte) : overruns s l = true ↔ degenerate s l = false ∧ avail s < l.toNat := by
  simp [overruns]

/-- A traversal that starts and overruns has met no condition of the table's other rows (R107). -/
theorem extractAnomalies_of_overruns (d : Frame) {s l : Byte} (h : overruns s l = true) :
    extractAnomalies (some d) s l = [.fieldOverrun] := by
  obtain ⟨hdeg, -⟩ := (overruns_eq_true_iff s l).mp h
  obtain ⟨hpos, hlen, hs⟩ := (degenerate_eq_false_iff s l).mp hdeg
  have hzero : l.toNat ≠ 0 := by omega
  have hlarge : ¬ l.toNat > 32 := by omega
  have hout : ¬ s.toNat ≥ 64 := by omega
  simp [extractAnomalies, Config.maxLength, Config.frameBits, h, hzero, hlarge, hout]

/-! ### A row of instances (R112) -/

/-- A step of one instance that answers a next state puts it in that instance's place. -/
theorem stepInstance_of_next {ss : List State} {j : Nat} {s t : State} (hj : ss[j]? = some s) (h : step s = .next t) :
    stepInstance ss j = .next (ss.set j t) := by
  simp [stepInstance, hj, putInstance, h]

end Sys2Proof.Machine

/-- Settles O43: the rows of class (a) and the absent frame are the conditions of R61, and an overrun excludes all four. -/
theorem anomaliesOfAnExtractionAnswerZero : Obligations.AnomaliesOfAnExtractionAnswerZero := by
  refine fun st data s l => ⟨fun ⟨x, hx, hclass⟩ => ?_, fun hmem => ?_⟩
  · have h := degenerate_or_absent_of_mem_extractAnomalies hx hclass
    exact ⟨degenerateExtractAnswersZero st data s l h, degenerateSignedExtractAnswersZero st data s l h⟩
  · obtain ⟨hsome, hover⟩ := (fieldOverrun_mem_extractAnomalies_iff data s l).mp hmem
    obtain ⟨d, rfl⟩ := Option.isSome_iff_exists.mp hsome
    exact extractAnomalies_of_overruns d hover

/-- Settles O44: there is no fault to answer, and a request that is not reserved decodes to an instruction, which
completes. -/
theorem nonReservedRequestHasExactlyOneOutcome : Obligations.NonReservedRequestHasExactlyOneOutcome := by
  refine ⟨fun _ f => ?_, fun s w rest hreq hwf => ?_⟩
  · cases f
  · obtain ⟨i, hd⟩ := (exists_decode_iff w).mpr hwf
    exact ⟨i, response i, hd, (step_of_ok hreq hd).trans (exec_eq i _)⟩

/-- Settles O56: setting one place of the row leaves every other place as it was. -/
theorem instancesShareNothing : Obligations.InstancesShareNothing := by
  intro ss j s t hj hstep
  obtain ⟨hlt, -⟩ := List.getElem?_eq_some_iff.mp hj
  exact ⟨ss.set j t, stepInstance_of_next hj hstep, List.length_set, List.getElem?_set_self hlt,
    fun _ hk => List.getElem?_set_ne hk.symm⟩
end

section
/-! The obligations of `70_reset_and_hazards.md`: a step while the host keeps its duty (R128), a response after reset
(R120). -/

open Sys2Proof Sys2Proof.Machine

namespace Sys2Proof.Machine

/-- With a request next, the duty is about that request and about those after it. -/
theorem hostKeepsDuty_iff_of_cons {s : State} {w : ReqWord} {rest : List ReqWord} (h : s.requests = w :: rest) :
    s.HostKeepsDuty ↔ ReqWord.WellFormed w ∧ ∀ w' ∈ rest, ReqWord.WellFormed w' := by
  rw [State.HostKeepsDuty, h, List.forall_mem_cons]

/-- The last exchange observed after an instruction is its right one, whatever was observed before it. -/
theorem getLast?_observed_of_exec {i : Instr} {s t : State} (h : exec i s = .next t) :
    t.observed.getLast? = some (rightExchange i) := by
  rw [exec_eq_rightExchange] at h
  cases h
  exact List.getLast?_concat

end Sys2Proof.Machine

/-- Settles O53: with no request pending the step changes nothing (log 2); a next request that is not reserved is answered,
and those after it stay pending. -/
theorem stepsNeverStopWhileTheHostKeepsItsDuty : Obligations.StepsNeverStopWhileTheHostKeepsItsDuty := by
  intro s hduty
  cases hreq : s.requests with
  | nil => exact ⟨s, step_of_nil hreq, hduty⟩
  | cons w rest =>
    obtain ⟨hw, hrest⟩ := (hostKeepsDuty_iff_of_cons hreq).mp hduty
    obtain ⟨i, hd⟩ := (exists_decode_iff w).mpr hw
    exact ⟨_, step_of_decode hreq hd, hrest⟩

/-- Settles O50: after reset no exchange has been observed and no request is pending (log 4), and the exchange an
instruction adds is its right one in every state. -/
theorem resetChangesNoResponse : Obligations.ResetChangesNoResponse := by
  refine ⟨State.reset_observed, State.reset_requests, fun i s t u hreset hs => ?_⟩
  rw [getLast?_observed_of_exec hreset, getLast?_observed_of_exec hs]
end

section
/-! The obligation on the worked encodings: `30_encoding.md` §8 and the vectors N1 to N9 of `95_test_vectors.md` §2.5. -/

open Sys2Proof Sys2Proof.Machine

namespace Sys2Proof

theorem decode_of_and_usedBits {w : ReqWord} {i : Instr} (h : w &&& usedBits i = encode i) : decode w = .ok i :=
  (decode_eq_ok_iff_and_usedBits w i).mpr h

theorem decode_of_reservedOp {w : ReqWord} (h0 : w.rsv0 = 0#5) (h1 : w.rsv1 = 0#8) (hop : w.fields.op = 3#2) :
    decode w = .error .op :=
  (decode_of_clear h0 h1).trans (instr_of_reservedOp hop)

end Sys2Proof

/-- Settles O7: a listed call has its word's bits under the mask of the bits it uses, which leaves out what N2 to N5 put in
ignored fields; N6 is reserved by its `OP`, N7 and N9 by a bit of `RSV0`, N8 by one of `RSV1`. -/
theorem workedEncodingsDecode : Obligations.WorkedEncodingsDecode := by
  refine ⟨?_, ?_, ?_, ?_, ?_, ?_, ?_, ?_, ?_, ?op, ?rsv0Low, ?rsv1, ?rsv0High⟩
  case op => exact decode_of_reservedOp (by decide) (by decide) (by decide)
  case rsv0Low => exact decode_of_reservedBit (.inl (by decide))
  case rsv1 => exact decode_of_reservedBit (.inr (by decide))
  case rsv0High => exact decode_of_reservedBit (.inl (by decide))
  all_goals exact decode_of_and_usedBits (by decide)
end
